-- ==== Sys2Proof/Config.lean ====
section
/-! DEFINITION. The constants the spec fixes (R7) and the parameters it leaves open (R8), at the
values this model takes.  There is no free value: no rule of the spec leaves the value of a result,
a flag or a register undefined after an operation that completes (see notes/assumptions/8.md). -/

namespace Sys2Proof.Config

/-- `TERM` of R7: the frame terminator byte, which never occurs in the body of a frame. -/
@[simp] abbrev term : BitVec 8 := 0x00#8

/-- `CODE_MIN` of R7: the smallest code byte; no data byte follows it. -/
@[simp] abbrev codeMin : BitVec 8 := 0x01#8

/-- `CODE_FULL` of R7: the code of a full chunk; 254 data bytes follow and no zero is implied. -/
@[simp] abbrev codeFull : BitVec 8 := 0xFF#8

/-- `MAX_RUN` of R7, the chunk cap: the most data bytes one code covers. -/
@[simp] abbrev maxRun : Nat := 254

/-- `LEN_BITS` of R8: the width that bounds the payload of one frame and so `enc.nzo` and `enc.tail`; `none` is
unbounded, which R8 allows beside its default 32.  DESIGN CHOICE: notes/assumptions/2.md. -/
@[simp] abbrev lenBits : Option Nat := none

/-- `SEG_MAX` of R8 at its default, unbounded: the most segments of a chain and the most bytes of one segment. -/
@[simp] abbrev segMax : Option Nat := none

/-- `DEC_REM_BITS` of R8 at its default: the width of `dec.remaining` (R21). -/
@[simp] abbrev decRemBits : Nat := 8

/-- `ENC_DL_BITS` of R8 at its default: the width of `enc.dataLeft` (R27). -/
@[simp] abbrev encDlBits : Nat := 8

/-- `PULL_BITS` of R8 at its default: the width of PULL's operand `max`.
DESIGN CHOICE of the spec (D2), taken as it stands: notes/assumptions/3.md. -/
@[simp] abbrev pullBits : Nat := 32

end Sys2Proof.Config
end

