-- ==== Sys2Proof/Word.lean ====
section
/-! DEFINITION. Bytes, segments and chains, and the raw request word (`Slot`) in which an instruction
is presented to the machine: the spec's own signals, one constructor for each format of the opcode
table (R108). -/

namespace Sys2Proof

/-- A byte (R7, R10): the unit of payload, of the wire stream and of a segment. -/
abbrev Byte := BitVec 8

/-- A segment (R60): a finite sequence of bytes; length 0 is allowed (R68). -/
abbrev Segment := List Byte

/-- A segment chain (R60): an ordered sequence of segments.  It has no addresses (R61, R67). -/
abbrev Chain := List Segment

/-- The three cursor operations, which have no bits of encoding and are invoked by name
(`cursor` format of R108; R160, R162, R163). -/
inductive CursorName where
  | peek
  | cpull1
  | cpull
deriving DecidableEq, Repr

/-- One raw request: the signals that present one instruction to the machine.

Only `decOp` (R101) and `encOp` (R102) are requests the host can make.  The other four formats of
R108 are the levels below: a byte of the wire in a stated position (R94, R95), a cursor operation
(R166) and an encoder step (R105).  The model accepts them as direct requests so that each row of the
opcode table can be run by itself: DESIGN CHOICE, notes/assumptions/5.md. -/
inductive Slot where
  /-- A byte in code position (R94). -/
  | wireCode (b : Byte)
  /-- A byte in data position (R95). -/
  | wireData (b : Byte)
  /-- `dec_op` and `dec_in` of R101. -/
  | decOp (op : BitVec 1) (din : Byte)
  /-- `enc_op`, `enc_chain` and `enc_max` of R102. -/
  | encOp (op : BitVec 2) (chain : Chain) (max : BitVec Config.pullBits)
  /-- A cursor operation by name, with the operand `n` of CPULL. -/
  | cursor (name : CursorName) (n : Nat)
  /-- An encoder step by the tag of `enc.state` that selects it (R105). -/
  | encStep (tag : BitVec 3)
  /-- Bits that no row of the opcode table holds. -/
  | unassigned (nbits w : Nat)
deriving DecidableEq, Repr

/-- The requests the host interface offers (R100 to R102): the six operations, and nothing else (R166). -/
def Slot.isHost : Slot → Bool
  | .decOp _ _ => true
  | .encOp _ _ _ => true
  | _ => false

end Sys2Proof
end

