-- ==== Sys2Proof/Syntax.lean ====
section
/-! DEFINITION. The instructions: one constructor for each row of spec/opcode_table.json (R108), at the
four levels of this hardware: the wire bytes, the host operations, the cursor, the encoder steps. -/

namespace Sys2Proof

/-- An instruction.  Operands are the decoded ones: a data count, a byte, a chain, a number. -/
inductive Instr where
  /-- `TERM` (R141): `0x00` in code position. -/
  | term
  /-- `ZERO` (R143): `0x01` in code position. -/
  | zero
  /-- `RUNZ n` (R144): a code `0x02` to `0xFE`; `n` data bytes follow, 1 to 253. -/
  | runz (n : Nat)
  /-- `RUNF` (R145): `0xFF` in code position; 254 data bytes follow. -/
  | runf
  /-- `LIT d` (R146): a non-zero byte in data position. -/
  | lit (d : Byte)
  /-- `ILLZ` (R147): `0x00` in data position. -/
  | illz
  /-- FEED(`b`) (R140). -/
  | feed (b : Byte)
  /-- RESET (R149). -/
  | reset
  /-- START(`S`) (R175). -/
  | start (chain : Chain)
  /-- PULL(`max`) (R176). -/
  | pull (max : Nat)
  /-- ABORT (R187). -/
  | abort
  /-- DISPOSE (R188). -/
  | dispose
  /-- PEEK, `ChainPeek()` (R160). -/
  | peek
  /-- CPULL1, `ChainPull1()` (R162). -/
  | cpull1
  /-- CPULL, `ChainPull(n)` (R163). -/
  | cpull (n : Nat)
  /-- Step `ZerosFirstByte` (R178). -/
  | zfb
  /-- Step `ZerosCode` (R179). -/
  | zc
  /-- Step `ZerosData` (R182). -/
  | zd
  /-- Step `NoZerosCode` (R183). -/
  | nzc
  /-- Step `NoZerosData` (R184). -/
  | nzd
  /-- Step `FinalZero` (R185). -/
  | fz
  /-- Step `Finished` (R186). -/
  | fin
deriving DecidableEq, Repr

end Sys2Proof
end

