-- ==== Sys2Proof/WellFormed.lean ====
section
/-! DEFINITION. Which instructions the encodings can express: the operand ranges of R94, R95 and R8. -/

namespace Sys2Proof

/-- Whether the host may hand over a chain under given `LEN_BITS` and `SEG_MAX` (R8, R69, R258): the payload
shorter than `2^LEN_BITS`, no more than `SEG_MAX` segments and none longer; `none` is no bound. -/
def chainFits (lenBits segMax : Option Nat) (chain : Chain) : Bool :=
  (match lenBits with
    | none => true
    | some w => decide (chain.flatten.length < 2 ^ w)) &&
  (match segMax with
    | none => true
    | some m => decide (chain.length ≤ m) && chain.all (fun seg => decide (seg.length ≤ m)))

/-- `RUNZ n` needs `1 ≤ n ≤ 253` (R94, R106), `LIT d` a non-zero `d` (R95), PULL a `max` below
`2^PULL_BITS` (R8, R258).  START's chain must keep the bounds of R8, which at the values Config takes
every chain does (notes/assumptions/2.md). -/
def Instr.wellFormed : Instr → Bool
  | .term => true
  | .zero => true
  | .runz n => decide (1 ≤ n) && decide (n ≤ 253)
  | .runf => true
  | .lit d => decide (d ≠ 0x00#8)
  | .illz => true
  | .feed _ => true
  | .reset => true
  | .start chain => chainFits Config.lenBits Config.segMax chain
  | .pull max => decide (max < 2 ^ Config.pullBits)
  | .abort => true
  | .dispose => true
  | .peek => true
  | .cpull1 => true
  | .cpull _ => true
  | .zfb => true
  | .zc => true
  | .zd => true
  | .nzc => true
  | .nzd => true
  | .fz => true
  | .fin => true

end Sys2Proof
end

