-- ==== Sys2Proof/Decode.lean ====
section
/-! DEFINITION. The decoder, total on every request word and on every byte of the wire, and after it
the encoder, written from the same tables of the spec (R91 to R96, R101, R102, R105, R108). -/

namespace Sys2Proof

/-- Why a request word is no instruction. -/
inductive DecodeError where
  /-- Tag value 7 of `enc.state`, which selects no step (R25; U9). -/
  | noSuchStep
  /-- Bits that no row of the opcode table holds. -/
  | noSuchRow
deriving DecidableEq, Repr

/-- The data count a code byte announces, `n = c - 1` (R92). -/
def dataCount (c : Byte) : Nat := c.toNat - 1

/-- The map of the 256 byte values in code position (R94). -/
def decodeWireCode (b : Byte) : Instr :=
  if b = Config.term then .term
  else if b = Config.codeMin then .zero
  else if b = Config.codeFull then .runf
  else .runz (dataCount b)

/-- The map of the 256 byte values in data position (R95). -/
def decodeWireData (b : Byte) : Instr :=
  if b = Config.term then .illz else .lit b

/-- The decoder request (R101): `dec_op` 0 is FEED of `dec_in`, 1 is RESET. -/
def decodeDecOp (op : BitVec 1) (din : Byte) : Instr :=
  if op = 0#1 then .feed din else .reset

/-- The encoder request (R102): `enc_op` 0 START, 1 PULL, 2 ABORT, 3 DISPOSE. -/
def decodeEncOp (op : BitVec 2) (chain : Chain) (max : BitVec Config.pullBits) : Instr :=
  if op = 0#2 then .start chain
  else if op = 1#2 then .pull max.toNat
  else if op = 2#2 then .abort
  else .dispose

/-- The cursor operations by name (R160, R162, R163). -/
def decodeCursor (name : CursorName) (n : Nat) : Instr :=
  match name with
  | .peek => .peek
  | .cpull1 => .cpull1
  | .cpull => .cpull n

/-- The encoder steps by the tag of `enc.state` (R25, R105); tag 7 selects none. -/
def decodeEncStep (tag : BitVec 3) : Except DecodeError Instr :=
  if tag = 0#3 then .ok .zfb
  else if tag = 1#3 then .ok .zc
  else if tag = 2#3 then .ok .zd
  else if tag = 3#3 then .ok .nzc
  else if tag = 4#3 then .ok .nzd
  else if tag = 5#3 then .ok .fz
  else if tag = 6#3 then .ok .fin
  else .error .noSuchStep

/-- The instruction a request word presents, or the name of the reason it presents none. -/
def decode (w : Slot) : Except DecodeError Instr :=
  match w with
  | .wireCode b => .ok (decodeWireCode b)
  | .wireData b => .ok (decodeWireData b)
  | .decOp op din => .ok (decodeDecOp op din)
  | .encOp op chain max => .ok (decodeEncOp op chain max)
  | .cursor name n => .ok (decodeCursor name n)
  | .encStep tag => decodeEncStep tag
  | .unassigned _ _ => .error .noSuchRow

/-- The instructions of a stretch of wire bytes of which the first `n` are in data position (R93):
a code byte alone tells where the next code stands.  It ends at the first `TERM` or `ILLZ`; any byte
list is accepted, since every value is assigned in both positions (R98). -/
def decodeWireFrom (n : Nat) (f : List Byte) : List Instr :=
  match f with
  | [] => []
  | b :: t =>
    match n with
    | 0 => if b = Config.term then [.term] else decodeWireCode b :: decodeWireFrom (dataCount b) t
    | m + 1 => if b = Config.term then [.illz] else decodeWireData b :: decodeWireFrom m t

/-- The wire instructions of a frame, its first byte being in code position (R94). -/
def decodeFrame (f : List Byte) : List Instr := decodeWireFrom 0 f

/-! ## The table's bit numbering -/

/-- A table word of 8 bits or fewer.  A width of 1, 2 or 3 bits is that of `dec_op`, `enc_op` or the
step tag.  Otherwise the formats share values, since the table numbers each format from bit 0, and the
word is read in the narrowest select field that holds it: DESIGN CHOICE, notes/assumptions/6.md. -/
def tableSlotNarrow (nbits w : Nat) : Slot :=
  if nbits = 0 then .cursor .peek 0
  else if nbits = 1 then .decOp (BitVec.ofNat 1 w) 0x00#8
  else if nbits = 2 then .encOp (BitVec.ofNat 2 w) [] 0
  else if nbits = 3 then .encStep (BitVec.ofNat 3 w)
  else if w < 2 then .decOp (BitVec.ofNat 1 w) 0x00#8
  else if w < 4 then .encOp (BitVec.ofNat 2 w) [] 0
  else if w < 7 then .encStep (BitVec.ofNat 3 w)
  else if w < 256 then .wireCode (BitVec.ofNat 8 w)
  else .unassigned nbits w

/-- A table word of more than 8 bits: bits 7:0 are the row's own, bits 15:8 number the format (0 and 1
the two wire positions, 2 `dec_op`, 3 `enc_op`, 4 cursor, 5 step), and the bits above hold the operand
of FEED, PULL or CPULL: DESIGN CHOICE, notes/assumptions/6.md. -/
def tableSlotWide (nbits w : Nat) : Slot :=
  let row := w % 256
  let format := w / 256 % 256
  let operand := w / 65536
  if format = 0 then .wireCode (BitVec.ofNat 8 row)
  else if format = 1 then .wireData (BitVec.ofNat 8 row)
  else if format = 2 ∧ row < 2 then .decOp (BitVec.ofNat 1 row) (BitVec.ofNat 8 operand)
  else if format = 3 ∧ row < 4 then .encOp (BitVec.ofNat 2 row) [] (BitVec.ofNat Config.pullBits operand)
  else if format = 4 ∧ row = 0 then .cursor .peek 0
  else if format = 4 ∧ row = 1 then .cursor .cpull1 0
  else if format = 4 ∧ row = 2 then .cursor .cpull operand
  else if format = 5 ∧ row < 8 then .encStep (BitVec.ofNat 3 row)
  else .unassigned nbits w

/-- The request word for `nbits` bits `w` numbered as spec/opcode_table.json numbers them. -/
def tableSlot (nbits w : Nat) : Slot :=
  if nbits ≤ 8 then tableSlotNarrow nbits w else tableSlotWide nbits w

/-- The instruction the decoder reads from `nbits` bits `w` numbered as the opcode table numbers them. -/
def decodeTableWord (nbits w : Nat) : Option Instr :=
  match decode (tableSlot nbits w) with
  | .ok i => some i
  | .error _ => none

/-! ## The encoder -/

/-- The code byte of a chunk of `n` data bytes, `c = n + 1` (R92, R133). -/
def codeByte (n : Nat) : Byte := BitVec.ofNat 8 (n + 1)

/-- The request word of an instruction, from the tables of R94, R95, R101, R102 and R105.  Signals an
operation does not use are zero, or the empty chain. -/
def encode (i : Instr) : Slot :=
  match i with
  | .term => .wireCode 0x00#8
  | .zero => .wireCode 0x01#8
  | .runz n => .wireCode (codeByte n)
  | .runf => .wireCode 0xFF#8
  | .lit d => .wireData d
  | .illz => .wireData 0x00#8
  | .feed b => .decOp 0#1 b
  | .reset => .decOp 1#1 0x00#8
  | .start chain => .encOp 0#2 chain 0
  | .pull max => .encOp 1#2 [] (BitVec.ofNat Config.pullBits max)
  | .abort => .encOp 2#2 [] 0
  | .dispose => .encOp 3#2 [] 0
  | .peek => .cursor .peek 0
  | .cpull1 => .cursor .cpull1 0
  | .cpull n => .cursor .cpull n
  | .zfb => .encStep 0#3
  | .zc => .encStep 1#3
  | .zd => .encStep 2#3
  | .nzc => .encStep 3#3
  | .nzd => .encStep 4#3
  | .fz => .encStep 5#3
  | .fin => .encStep 6#3

end Sys2Proof
end

