-- ==== Sys2Proof/Machine/State.lean ====
section
/-! DEFINITION. The machine's state as plain data: the decoder (R20 to R22), the encoder (R25 to R33,
R47), the response ports of the last operation (R101, R102), and the operations the host has issued and
the machine has not yet taken (R75). -/

namespace Sys2Proof.Machine

/-! ## Decoder -/

/-- `dec.state` (R20).  The unused encoding 3 cannot be formed (R24). -/
inductive DecState where
  | code
  | data
  | finished
deriving DecidableEq, Repr

/-- The four results of FEED (R103). -/
inductive FeedResult where
  | consumed
  | frameComplete
  | unexpectedZero
  | protocolError
deriving DecidableEq, Repr

/-- The decoder's registers (R20, R21, R22; R46). -/
structure Decoder where
  /-- `dec.state` (R20). -/
  state : DecState
  /-- `dec.remaining` (R21), `DEC_REM_BITS` wide (R8). -/
  remaining : BitVec Config.decRemBits
  /-- `dec.pendingZero` (R22): a payload zero is owed. -/
  pendingZero : Bool
deriving DecidableEq, Repr

/-! ## Encoder -/

/-- `enc.life` (R31). -/
inductive Life where
  | unstarted
  | owned
  | disposed
deriving DecidableEq, Repr

/-- `enc.post` (R28): where `ZD` goes when its chunk is finished; no other value is possible. -/
inductive Post where
  | zfb
  | zc
deriving DecidableEq, Repr

/-- `enc.state` with the fields each state carries (R25 to R30); a field a state does not carry is not
representable, as R32 asks. -/
inductive EncState where
  /-- `ZerosFirstByte`. -/
  | zfb
  /-- `ZerosCode{nextZeroOffset}`. -/
  | zc (nzo : Nat)
  /-- `ZerosData{dataLeft, postState}` with the zero-distance counter (R26, C3). -/
  | zd (dataLeft : BitVec Config.encDlBits) (post : Post) (nzo : Nat)
  /-- `NoZerosCode{tailLength}`. -/
  | nzc (tail : Nat)
  /-- `NoZerosData{tailLength, dataLeft}` with `enc.full` (R30). -/
  | nzd (tail : Nat) (dataLeft : BitVec Config.encDlBits) (full : Bool)
  /-- `FinalZero`. -/
  | fz
  /-- `Finished`. -/
  | fin
deriving DecidableEq, Repr

/-- The memory (R39, R60): `enc.chain` and `enc.off` (R33), the owned payload and the read position. -/
structure Memory where
  /-- `enc.chain`: the segments not yet released. -/
  chain : Chain
  /-- `enc.off`: the bytes of the head segment already consumed. -/
  off : Nat
deriving DecidableEq, Repr

/-- The memory that holds nothing (R43). -/
def Memory.empty : Memory := { chain := [], off := 0 }

/-- The encoder's registers (R25 to R33, R46, R47). -/
structure Encoder where
  /-- `enc.life` (R31). -/
  life : Life
  /-- `enc.state` and the fields it carries (R25). -/
  state : EncState
  /-- `enc.chain` and `enc.off` (R33). -/
  mem : Memory
  /-- The count of segments released since START (R40 (c)): it numbers the `release` events. -/
  released : Nat
  /-- The dead bit (R47). -/
  dead : Bool
deriving DecidableEq, Repr

/-! ## Events, ports, inputs -/

/-- The faults of R210 and R214.  A fault is TAKEN: it kills the encoder (R47) and answers a next state, so
the decoder, which shares nothing with it (R76), goes on.  No step of this model answers `.fault`
(notes/assumptions/1.md), which is safe where the host is told nothing of a fault (R214). -/
inductive Fault where
  /-- A pull of more bytes than remain (R164): CPULL1, CPULL, and the steps `ZC`, `ZD`, `NZD`.  Safe. -/
  | cursorUnderrun
  /-- PULL in `Unstarted` (R190).  Safe. -/
  | notStarted
  /-- PULL in `Disposed` with `enc.state ≠ FIN` (R190).  Safe. -/
  | useAfterDispose
  /-- START in `Owned` (R190).  Safe. -/
  | startWhileOwned
deriving DecidableEq, Repr

/-- Why a step has no meaning.  None of these is reached by a request of the host interface. -/
inductive Refusal where
  /-- An instruction without a meaning; no arm of `exec` says so.  Safe. -/
  | notModelled (mnemonic : String)
  /-- The pending bits are no instruction: tag 7, or no row of the table (U9: stuck).  Raised by `step`.  Safe. -/
  | undecodable
  /-- A wire instruction presented while the decoder is in the other position, where the same byte is
  another instruction (R96).  Raised by `TERM`, `ZERO`, `RUNZ`, `RUNF` in `Data`, `LIT`, `ILLZ` in `Code`.  Safe. -/
  | wrongPosition
  /-- An encoder step presented while `enc.state` holds another tag, which selects another step (R105,
  R177).  Raised by the seven steps.  Safe. -/
  | stepNotSelected
deriving DecidableEq, Repr

/-- The answer of PEEK (R161). -/
inductive Peek where
  /-- `Zero(d)`: the next payload zero is `d` bytes ahead. -/
  | zero (d : Nat)
  /-- `NoZero(t)`: no zero lies ahead; `t` bytes remain. -/
  | noZero (t : Nat)
deriving DecidableEq, Repr

/-- The response of the operation the last step took: the output signals of R101 and R102, the internal
results of the cursor operations (R160, R162, R163), and the fault taken, if any.  An absent value is a
signal not driven. -/
structure Ports where
  /-- `dec_res` (R101, R103). -/
  decRes : Option FeedResult
  /-- `dec_out_valid` and `dec_out` (R101). -/
  decOut : Option Byte
  /-- `enc_len` and `enc_bytes` (R102). -/
  encBytes : Option (List Byte)
  /-- `rel` (R102): the `release` events, each the number of the segment in the chain started (R73). -/
  rel : List Nat
  /-- The number PEEK returns (R160). -/
  peek : Option Peek
  /-- The bytes CPULL1 or CPULL returns (R162, R163). -/
  pulled : Option (List Byte)
  /-- The fault taken: no port of the hardware reports it (R214); the model's own record. -/
  fault : Option Fault
deriving DecidableEq, Repr

/-- No signal driven. -/
def Ports.idle : Ports :=
  { decRes := none, decOut := none, encBytes := none, rel := [], peek := none, pulled := none, fault := none }

/-- The two machines, one of each (R226). -/
inductive Agent where
  | decoder
  | encoder
deriving DecidableEq, Repr

/-- What can come from outside: a request (R101, R102), or hardware reset of one machine, an event outside
the operation interface (R240). -/
inductive Input where
  | request (w : Slot)
  | hardwareReset (agent : Agent)
deriving DecidableEq, Repr

/-! ## The state -/

/-- The state: the two machines, which share nothing (R76), the response ports, and the inputs issued and not
yet taken, oldest first (R75). -/
structure State where
  dec : Decoder
  enc : Encoder
  ports : Ports
  pending : List Input
deriving DecidableEq, Repr

/-- The decoder after hardware reset (R42, R241): all zero bits. -/
def Decoder.reset : Decoder := { state := .code, remaining := 0, pendingZero := false }

/-- The encoder after hardware reset (R43); the dead bit is clear (R240). -/
def Encoder.reset : Encoder :=
  { life := .unstarted, state := .fin, mem := Memory.empty, released := 0, dead := false }

/-- The machine right after hardware reset of both instances: nothing driven, nothing pending.  No program
runs (R45). -/
def State.reset : State :=
  { dec := Decoder.reset, enc := Encoder.reset, ports := Ports.idle, pending := [] }

end Sys2Proof.Machine
end

