-- ==== Sys2Proof/Machine/Operands.lean ====
section
/-! DEFINITION. The operands derived from a code byte (R92), the code of a chunk (R133, R136), and the numeric
encodings of the tags and results (R20, R25, R28, R31, R103) with the signal view of the ports (R101, R102). -/

namespace Sys2Proof.Machine

/-- The number of data bytes of the next chunk when the zero, or the end of the data, is `d` bytes ahead:
all of them below the chunk cap, else 254 (R136). -/
def chunkLength (d : Nat) : Nat := if d < Config.maxRun then d else Config.maxRun

/-- The code byte of that chunk: `d + 1` below the cap, else `0xFF` (R133, R136). -/
def chunkCode (d : Nat) : Byte := if d < Config.maxRun then codeByte d else Config.codeFull

/-! ## Numeric encodings -/

/-- `dec.state`, 2 bits (R20). -/
def DecState.tag : DecState → BitVec 2
  | .code => 0#2
  | .data => 1#2
  | .finished => 2#2

/-- `dec_res`, 2 bits (R103). -/
def FeedResult.tag : FeedResult → BitVec 2
  | .consumed => 0#2
  | .frameComplete => 1#2
  | .unexpectedZero => 2#2
  | .protocolError => 3#2

/-- `enc.life`, 2 bits (R31). -/
def Life.tag : Life → BitVec 2
  | .unstarted => 0#2
  | .owned => 1#2
  | .disposed => 2#2

/-- `enc.state`, 3 bits (R25). -/
def EncState.tag : EncState → BitVec 3
  | .zfb => 0#3
  | .zc _ => 1#3
  | .zd _ _ _ => 2#3
  | .nzc _ => 3#3
  | .nzd _ _ _ => 4#3
  | .fz => 5#3
  | .fin => 6#3

/-- `enc.post`, 1 bit: the low bit of the state tag (R28). -/
def Post.tag : Post → BitVec 1
  | .zfb => 0#1
  | .zc => 1#1

/-- The state `enc.post` names; `enc.nzo` is carried over (R182). -/
def Post.target (post : Post) (nzo : Nat) : EncState :=
  match post with
  | .zfb => .zfb
  | .zc => .zc nzo

/-! ## The response signals -/

/-- `dec_out_valid` (R101). -/
def Ports.decOutValid (p : Ports) : BitVec 1 := if p.decOut.isSome then 1#1 else 0#1

/-- `enc_len` (R102): the number of bytes this PULL produced. -/
def Ports.encLen (p : Ports) : Option Nat := p.encBytes.map List.length

end Sys2Proof.Machine
end

