-- ==== Sys2Proof/Machine/Flags.lean ====
section
/-! DEFINITION. The machine's two flags and the saved return target: `dec.pendingZero` (R22, R92, R142), `enc.full`
(R30, R181) and `enc.post` (R28, R180). -/

namespace Sys2Proof.Machine

/-- The zero-owed bit a code byte sets, `z = (c ≠ 0xFF)` (R92). -/
def zeroOwedBy (c : Byte) : Bool := decide (c ≠ Config.codeFull)

/-- The owed zero (R142): if one is owed it is this FEED's output byte, and the flag is cleared. -/
def payOwedZero (d : Decoder) : Decoder × Option Byte :=
  if d.pendingZero then ({ d with pendingZero := false }, some 0x00#8) else (d, none)

/-- `enc.full` for a chunk of the zero-free tail of length `t`: set when its code is `0xFF` (R30, R181). -/
def fullFlag (t : Nat) : Bool := decide (Config.maxRun ≤ t)

/-- `enc.post` for a chunk on the zeros path with the zero `d` bytes ahead: `ZFB` when the run is exactly
254, else `ZC` (R28, R180). -/
def postFor (d : Nat) : Post := if d = Config.maxRun then .zfb else .zc

end Sys2Proof.Machine
end

