-- ==== Sys2Proof/Machine/Ops.lean ====
section
/-! DEFINITION. The shared operations: the memory (R60 to R74, R160 to R165), the updates of State, raising a
result, taking a fault and returning from either, hardware reset, and fetching the next input. -/

namespace Sys2Proof.Machine

/-! ## Memory -/

/-- The payload bytes not yet consumed, `rest` of R33. -/
def Memory.rest (m : Memory) : List Byte :=
  match m.chain with
  | [] => []
  | s :: t => s.drop m.off ++ t.flatten

/-- The read of one byte: the byte `k` positions ahead of the read position (R61), if there is one. -/
def Memory.byteAt (m : Memory) (k : Nat) : Option Byte := m.rest[k]?

/-- The canonical form, the normal form of R33: nothing held and `off = 0`, or a head segment with at
least one unconsumed byte. -/
def Memory.wf (m : Memory) : Bool :=
  match m.chain with
  | [] => decide (m.off = 0)
  | s :: _ => decide (m.off < s.length)

/-- The release loop of R73: drained and empty heads go back, in chain order, until the chain is empty or
its head has an unconsumed byte.  Answers the memory and how many segments went back. -/
def settle (chain : Chain) (off : Nat) : Memory × Nat :=
  match chain with
  | [] => (Memory.empty, 0)
  | s :: t =>
    if off = s.length then ((settle t 0).1, (settle t 0).2 + 1)
    else ({ chain := s :: t, off := off }, 0)

/-- The memory START leaves (R175): the chain given, less its empty head segments. -/
def Memory.load (chain : Chain) : Memory × Nat := settle chain 0

/-- The scan of R160 over the unconsumed bytes: the distance to the first zero, or to the end. -/
def probe (bytes : List Byte) : Peek :=
  match bytes with
  | [] => .noZero 0
  | b :: t =>
    if b = 0x00#8 then .zero 0
    else
      match probe t with
      | .zero d => .zero (d + 1)
      | .noZero d => .noZero (d + 1)

/-- `ChainPeek()` (R160): looks ahead, across segment boundaries, and changes nothing. -/
def Memory.peek (m : Memory) : Peek := probe m.rest

/-- `ChainPull1()` (R162): the byte at the read position, the memory after it, and how many segments were
released; `none` when nothing remains (R164). -/
def Memory.pull1 (m : Memory) : Option (Byte × Memory × Nat) :=
  match m.chain with
  | [] => none
  | s :: t =>
    match s[m.off]? with
    | none => none
    | some b => some (b, (settle (s :: t) (m.off + 1)).1, (settle (s :: t) (m.off + 1)).2)

/-- `n` times `ChainPull1()`, in order (R163). -/
def Memory.pullMany (n : Nat) (m : Memory) : Option (List Byte × Memory × Nat) :=
  match n with
  | 0 => some ([], m, 0)
  | k + 1 =>
    match m.pull1 with
    | none => none
    | some (b, m', r) =>
      match Memory.pullMany k m' with
      | none => none
      | some (bs, m'', r') => some (b :: bs, m'', r + r')

/-- `ChainPull(n)` (R163): the length is checked before anything is consumed (D23). -/
def Memory.pull (n : Nat) (m : Memory) : Option (List Byte × Memory × Nat) :=
  if m.rest.length < n then none else m.pullMany n

/-! ## Updates of the state -/

/-- The answer of a decoder operation: new decoder registers and the response signals. -/
def State.answerDec (s : State) (d : Decoder) (p : Ports) : State := { s with dec := d, ports := p }

/-- The answer of an encoder operation: new encoder registers and the response signals. -/
def State.answerEnc (s : State) (e : Encoder) (p : Ports) : State := { s with enc := e, ports := p }

/-- The control transfer of the encoder, `enc.state <- T` (R177). -/
def Encoder.goto (e : Encoder) (t : EncState) : Encoder := { e with state := t }

/-- The encoder after its memory became `m` with `k` more segments released (R73). -/
def Encoder.withMemory (e : Encoder) (m : Memory) (k : Nat) : Encoder :=
  { e with mem := m, released := e.released + k }

/-- The events of releasing the next `k` segments, in chain order (R73); each carries the number of the
segment in the chain started (notes/assumptions/7.md). -/
def Encoder.releases (e : Encoder) (k : Nat) : List Nat := List.range' e.released k

/-! ## Results, faults, and the returns from them -/

/-- `return <Result>` of R140 with the output byte, if any. -/
def feedResponse (r : FeedResult) (out : Option Byte) : Ports := { Ports.idle with decRes := some r, decOut := out }

/-- `raise <Result>` (R210): end the FEED with that result and no output byte, after the register writes
the rule lists. -/
def raiseResult (r : FeedResult) (d : Decoder) : Decoder × Ports := (d, feedResponse r none)

/-- Taking `fault <Name>` (R214): none of the operation's register writes, outputs or `release` events
happen; the dead bit is set.  Nothing else changes, and the decoder, another machine, goes on (R76). -/
def takeFault (f : Fault) (s : State) : State :=
  s.answerEnc { s.enc with dead := true } { Ports.idle with fault := some f }

/-- The return from a terminal result (R219) is RESET: the decoder's registers at their initial values
(R149). -/
def returnFromResult (_d : Decoder) : Decoder := { state := .code, remaining := 0, pendingZero := false }

/-- Hardware reset of one machine (R240): the only return from a fault.  No `release` event. -/
def hardwareReset (agent : Agent) (s : State) : State :=
  match agent with
  | .decoder => s.answerDec Decoder.reset Ports.idle
  | .encoder => s.answerEnc Encoder.reset Ports.idle

/-! ## Running an operation on one machine -/

/-- A decoder operation: total, no fault (R215). -/
def onDecoder (f : Decoder → Decoder × Ports) (s : State) : State := s.answerDec (f s.dec).1 (f s.dec).2

/-- An encoder operation.  On a dead instance it changes nothing and returns nothing (R214 (c)); a fault in
it is taken with nothing of the operation kept (R214 (a)). -/
def onEncoder (f : Encoder → Except Fault (Encoder × Ports)) (s : State) : State :=
  if s.enc.dead then s.answerEnc s.enc Ports.idle
  else
    match f s.enc with
    | .error fault => takeFault fault s
    | .ok r => s.answerEnc r.1 r.2

/-- What a stretch of encoder steps makes: the encoder after it, the bytes it appended with `emit` (R176),
and the `release` events. -/
structure Production where
  enc : Encoder
  bytes : List Byte
  rel : List Nat
deriving DecidableEq, Repr

/-- The signals of a production (R102). -/
def Production.response (p : Production) : Encoder × Ports :=
  (p.enc, { Ports.idle with encBytes := some p.bytes, rel := p.rel })

/-- An encoder operation that produces wire bytes. -/
def producing (f : Encoder → Except Fault Production) (e : Encoder) : Except Fault (Encoder × Ports) :=
  match f e with
  | .error fault => .error fault
  | .ok p => .ok p.response

/-- `ChainPull1()` on the encoder (R162): the byte, the encoder after it, the `release` events; the fault
`CursorUnderrun` when nothing remains (R164). -/
def Encoder.pull1 (e : Encoder) : Except Fault (Byte × Encoder × List Nat) :=
  match e.mem.pull1 with
  | none => .error .cursorUnderrun
  | some (b, m, k) => .ok (b, e.withMemory m k, e.releases k)

/-! ## Fetch -/

/-- The next input and the state with it taken; `none` when the host has issued nothing. -/
def fetch (s : State) : Option (Input × State) :=
  match s.pending with
  | [] => none
  | i :: rest => some (i, { s with pending := rest })

/-- Between operations the machine holds its state (R228): the registers stay, no signal is driven. -/
def idleStep (s : State) : State := { s with ports := Ports.idle }

/-- The smallest situation in which `enc.state` carries a tag: an owned chain with just the payload that R34
asks for in that state. -/
def encoderAt (tag : BitVec 3) : Encoder :=
  let owned (st : EncState) (chain : Chain) : Encoder :=
    { life := .owned, state := st, mem := { chain := chain, off := 0 }, released := 0, dead := false }
  if tag = 0#3 then owned .zfb [[0x00#8]]
  else if tag = 1#3 then owned (.zc 0) [[0x00#8]]
  else if tag = 2#3 then owned (.zd 1 .zc 1) [[0x01#8, 0x00#8]]
  else if tag = 3#3 then owned (.nzc 0) []
  else if tag = 4#3 then owned (.nzd 1 1 false) [[0x01#8]]
  else if tag = 5#3 then owned .fz []
  else owned .fin []

/-- Selects what a request needs to be the instruction the machine runs next: the decoder's position for a
wire byte (R96), the tag of `enc.state` for a step (R105).  Nothing is touched where it is so already, and the dead
bit never is: only hardware reset clears it (R214 (d)), so a step placed on a dead encoder is refused (R214 (c)).
That an encoder in another state is replaced by `encoderAt` is the model's choice, notes/assumptions/6.md. -/
def selectFor (w : Slot) (s : State) : State :=
  match w with
  | .wireCode _ =>
    if s.dec.state = .code then s else { s with dec := { s.dec with state := .code, remaining := 0 } }
  | .wireData _ =>
    if s.dec.state = .data then s else { s with dec := { s.dec with state := .data, remaining := 1 } }
  | .encStep tag =>
    if s.enc.state.tag = tag then s else { s with enc := { encoderAt tag with dead := s.enc.dead } }
  | _ => s

/-- Puts a request at the head of the pending inputs, with what it needs selected. -/
def placeRequest (w : Slot) (s : State) : State :=
  { selectFor w s with pending := .request w :: s.pending }

end Sys2Proof.Machine
end

