-- ==== Sys2Proof/Machine/Cursor.lean ====
section
/-! DEFINITION. The Segment Cursor: PEEK, CPULL1 and CPULL (R160 to R168). -/

namespace Sys2Proof.Machine

/-- PEEK on the encoder (R160): the answer only. -/
def cursorPeek (e : Encoder) : Except Fault (Encoder × Ports) :=
  .ok (e, { Ports.idle with peek := some e.mem.peek })

/-- CPULL1 on the encoder (R162). -/
def cursorPull1 (e : Encoder) : Except Fault (Encoder × Ports) :=
  match e.pull1 with
  | .error fault => .error fault
  | .ok (b, e', rel) => .ok (e', { Ports.idle with pulled := some [b], rel := rel })

/-- CPULL on the encoder (R163). -/
def cursorPull (n : Nat) (e : Encoder) : Except Fault (Encoder × Ports) :=
  match e.mem.pull n with
  | none => .error .cursorUnderrun
  | some (bs, m, k) => .ok (e.withMemory m k, { Ports.idle with pulled := some bs, rel := e.releases k })

/-- PEEK (R160). -/
def execPeek (s : State) : Host.Outcome State Fault Refusal := .next (onEncoder cursorPeek s)

/-- CPULL1 (R162). -/
def execCpull1 (s : State) : Host.Outcome State Fault Refusal := .next (onEncoder cursorPull1 s)

/-- CPULL (R163). -/
def execCpull (n : Nat) (s : State) : Host.Outcome State Fault Refusal := .next (onEncoder (cursorPull n) s)

end Sys2Proof.Machine
end

