-- ==== Sys2Proof/Machine/Wire.lean ====
section
/-! DEFINITION. The wire instructions: the bytes of the frame in code position (`TERM`, `ZERO`, `RUNZ`, `RUNF`) and in
data position (`LIT`, `ILLZ`), R141 to R148. -/

namespace Sys2Proof.Machine

/-! ## Effects on the decoder -/

/-- `TERM` (R141): the frame is complete, an owed zero is dropped unpaid, no output byte. -/
def feedTerm (d : Decoder) : Decoder × Ports :=
  raiseResult .frameComplete { d with state := .finished, pendingZero := false }

/-- `ZERO` (R142, R143): pays an owed zero, then owes one again; the state stays `Code`. -/
def feedZero (d : Decoder) : Decoder × Ports :=
  ({ (payOwedZero d).1 with pendingZero := true }, feedResponse .consumed (payOwedZero d).2)

/-- `RUNZ n` (R142, R144): pays an owed zero; `n` data bytes follow and a zero is owed after them. -/
def feedRunz (n : Nat) (d : Decoder) : Decoder × Ports :=
  ({ (payOwedZero d).1 with state := .data, remaining := BitVec.ofNat Config.decRemBits n, pendingZero := zeroOwedBy (codeByte n) },
    feedResponse .consumed (payOwedZero d).2)

/-- `RUNF` (R142, R145): pays an owed zero; 254 data bytes follow and none is owed after them. -/
def feedRunf (d : Decoder) : Decoder × Ports :=
  ({ (payOwedZero d).1 with
      state := .data, remaining := BitVec.ofNat Config.decRemBits (dataCount Config.codeFull), pendingZero := zeroOwedBy Config.codeFull },
    feedResponse .consumed (payOwedZero d).2)

/-- `LIT b` (R146): the byte is output as it is; the test for the end of the run is made after the decrement. -/
def feedLit (b : Byte) (d : Decoder) : Decoder × Ports :=
  ({ d with remaining := d.remaining - 1, state := if d.remaining - 1 = 0 then .code else d.state },
    feedResponse .consumed (some b))

/-- `ILLZ` (R147, R211): `UnexpectedZero`; only `dec.state` changes. -/
def feedIllz (d : Decoder) : Decoder × Ports :=
  raiseResult .unexpectedZero { d with state := .finished }

/-- FEED in `Finished`, any byte (R148, R212): `ProtocolError` without side effects. -/
def feedFinished (d : Decoder) : Decoder × Ports := raiseResult .protocolError d

/-! ## Meanings -/

/-- A wire byte in code position, which is exactly `dec.state = Code` (R94).  In `Finished` any byte is a
`ProtocolError` (R148); in `Data` the byte is another instruction (R96). -/
def inCodePosition (f : Decoder → Decoder × Ports) (s : State) : Host.Outcome State Fault Refusal :=
  match s.dec.state with
  | .code => .next (onDecoder f s)
  | .data => .refused .wrongPosition
  | .finished => .next (onDecoder feedFinished s)

/-- A wire byte in data position, which is exactly `dec.state = Data` (R95). -/
def inDataPosition (f : Decoder → Decoder × Ports) (s : State) : Host.Outcome State Fault Refusal :=
  match s.dec.state with
  | .code => .refused .wrongPosition
  | .data => .next (onDecoder f s)
  | .finished => .next (onDecoder feedFinished s)

/-- `TERM` (R141). -/
def execTerm (s : State) : Host.Outcome State Fault Refusal := inCodePosition feedTerm s

/-- `ZERO` (R143). -/
def execZero (s : State) : Host.Outcome State Fault Refusal := inCodePosition feedZero s

/-- `RUNZ n` (R144). -/
def execRunz (n : Nat) (s : State) : Host.Outcome State Fault Refusal := inCodePosition (feedRunz n) s

/-- `RUNF` (R145). -/
def execRunf (s : State) : Host.Outcome State Fault Refusal := inCodePosition feedRunf s

/-- `LIT d` (R146). -/
def execLit (d : Byte) (s : State) : Host.Outcome State Fault Refusal := inDataPosition (feedLit d) s

/-- `ILLZ` (R147). -/
def execIllz (s : State) : Host.Outcome State Fault Refusal := inDataPosition feedIllz s

end Sys2Proof.Machine
end

