-- ==== Sys2Proof/Machine/DecoderOps.lean ====
section
/-! DEFINITION. The decoder's two host operations: FEED (R140) and RESET (R149). -/

namespace Sys2Proof.Machine

/-- The dispatch of FEED on `dec.state` and the byte (R140, R150): total, one rule for every pair. -/
def feedByte (b : Byte) (d : Decoder) : Decoder × Ports :=
  match d.state with
  | .code =>
    if b = Config.term then feedTerm d
    else if b = Config.codeMin then feedZero d
    else if b = Config.codeFull then feedRunf d
    else feedRunz (dataCount b) d
  | .data => if b = Config.term then feedIllz d else feedLit b d
  | .finished => feedFinished d

/-- FEED(`b`) (R140). -/
def execFeed (b : Byte) (s : State) : Host.Outcome State Fault Refusal := .next (onDecoder (feedByte b) s)

/-- RESET (R149): legal in every state, cannot fail, returns nothing. -/
def execReset (s : State) : Host.Outcome State Fault Refusal :=
  .next (onDecoder (fun d => (returnFromResult d, Ports.idle)) s)

end Sys2Proof.Machine
end

