-- ==== Sys2Proof/Machine/EncoderSteps.lean ====
section
/-! DEFINITION. The encoder's seven steps (R178 to R186) with the chunking they share (R180, R181), and the dispatch
STEP (R177). -/

namespace Sys2Proof.Machine

/-! ## Chunking -/

/-- `CHUNKZ(d)` for `d ≥ 1` (R180): the next chunk of the zeros path, with the zero `d` bytes ahead. -/
def chunkz (d : Nat) (rel : List Nat) (e : Encoder) : Production :=
  { enc := e.goto (.zd (BitVec.ofNat Config.encDlBits (chunkLength d)) (postFor d) d), bytes := [chunkCode d], rel := rel }

/-- `NZCODE(t)` (R181): the next chunk of the zero-free tail of `t` bytes. -/
def nzcode (t : Nat) (rel : List Nat) (e : Encoder) : Production :=
  if t = 0 then { enc := e.goto .fz, bytes := [Config.codeMin], rel := rel }
  else { enc := e.goto (.nzd t (BitVec.ofNat Config.encDlBits (chunkLength t)) (fullFlag t)), bytes := [chunkCode t], rel := rel }

/-! ## The steps -/

/-- Step `ZFB` (R178). -/
def stepZfb (e : Encoder) : Except Fault Production :=
  .ok { enc := e.goto (.zc 0), bytes := [Config.codeMin], rel := [] }

/-- Step `ZC` (R179): on a zero it is consumed, unlooked at, and the rest is probed anew; off a zero the
known distance is chunked. -/
def stepZc (nzo : Nat) (e : Encoder) : Except Fault Production :=
  if nzo = 0 then
    match e.pull1 with
    | .error fault => .error fault
    | .ok (_, e', rel) =>
      match e'.mem.peek with
      | .noZero t => .ok (nzcode t rel e')
      | .zero 0 => .ok { enc := e'.goto (.zc 0), bytes := [Config.codeMin], rel := rel }
      | .zero (d + 1) => .ok (chunkz (d + 1) rel e')
  else .ok (chunkz nzo [] e)

/-- Step `ZD` (R182): one payload byte, both counters down by one, the return through `enc.post`. -/
def stepZd (dataLeft : BitVec Config.encDlBits) (post : Post) (nzo : Nat) (e : Encoder) : Except Fault Production :=
  match e.pull1 with
  | .error fault => .error fault
  | .ok (b, e', rel) =>
    .ok { enc := e'.goto (if dataLeft - 1 = 0 then post.target (nzo - 1) else .zd (dataLeft - 1) post (nzo - 1)),
          bytes := [b], rel := rel }

/-- Step `NZC` (R183). -/
def stepNzc (tail : Nat) (e : Encoder) : Except Fault Production := .ok (nzcode tail [] e)

/-- Step `NZD` (R184): after a full chunk to `NZC` even when the tail is used up (C1), after a short one to
`FZ`. -/
def stepNzd (tail : Nat) (dataLeft : BitVec Config.encDlBits) (full : Bool) (e : Encoder) : Except Fault Production :=
  match e.pull1 with
  | .error fault => .error fault
  | .ok (b, e', rel) =>
    .ok { enc := e'.goto (if dataLeft - 1 = 0 then (if full then .nzc (tail - 1) else .fz)
                          else .nzd (tail - 1) (dataLeft - 1) full),
          bytes := [b], rel := rel }

/-- Step `FZ` (R185). -/
def stepFz (e : Encoder) : Except Fault Production :=
  .ok { enc := e.goto .fin, bytes := [Config.term], rel := [] }

/-- Step `FIN` (R186): no effect and no successor. -/
def stepFin (e : Encoder) : Except Fault Production := .ok { enc := e, bytes := [], rel := [] }

/-- STEP (R177): the dispatch on `enc.state`. -/
def encoderStep (e : Encoder) : Except Fault Production :=
  match e.state with
  | .zfb => stepZfb e
  | .zc nzo => stepZc nzo e
  | .zd dataLeft post nzo => stepZd dataLeft post nzo e
  | .nzc tail => stepNzc tail e
  | .nzd tail dataLeft full => stepNzd tail dataLeft full e
  | .fz => stepFz e
  | .fin => stepFin e

/-! ## Meanings: a step by itself, in the state whose tag selects it (R105) -/

/-- Step `ZFB` (R178). -/
def execZfb (s : State) : Host.Outcome State Fault Refusal :=
  match s.enc.state with
  | .zfb => .next (onEncoder (producing stepZfb) s)
  | _ => .refused .stepNotSelected

/-- Step `ZC` (R179). -/
def execZc (s : State) : Host.Outcome State Fault Refusal :=
  match s.enc.state with
  | .zc nzo => .next (onEncoder (producing (stepZc nzo)) s)
  | _ => .refused .stepNotSelected

/-- Step `ZD` (R182). -/
def execZd (s : State) : Host.Outcome State Fault Refusal :=
  match s.enc.state with
  | .zd dataLeft post nzo => .next (onEncoder (producing (stepZd dataLeft post nzo)) s)
  | _ => .refused .stepNotSelected

/-- Step `NZC` (R183). -/
def execNzc (s : State) : Host.Outcome State Fault Refusal :=
  match s.enc.state with
  | .nzc tail => .next (onEncoder (producing (stepNzc tail)) s)
  | _ => .refused .stepNotSelected

/-- Step `NZD` (R184). -/
def execNzd (s : State) : Host.Outcome State Fault Refusal :=
  match s.enc.state with
  | .nzd tail dataLeft full => .next (onEncoder (producing (stepNzd tail dataLeft full)) s)
  | _ => .refused .stepNotSelected

/-- Step `FZ` (R185). -/
def execFz (s : State) : Host.Outcome State Fault Refusal :=
  match s.enc.state with
  | .fz => .next (onEncoder (producing stepFz) s)
  | _ => .refused .stepNotSelected

/-- Step `FIN` (R186): nothing is produced and nothing changes. -/
def execFin (s : State) : Host.Outcome State Fault Refusal :=
  match s.enc.state with
  | .fin => .next (onEncoder (producing stepFin) s)
  | _ => .refused .stepNotSelected

end Sys2Proof.Machine
end

