-- ==== Sys2Proof/Machine/EncoderOps.lean ====
section
/-! DEFINITION. The encoder's four host operations: START (R175), PULL (R176), ABORT (R187), DISPOSE (R188), with
the lifecycle of R190. -/

namespace Sys2Proof.Machine

/-- The first state, from the probe START makes (R175). -/
def firstState (p : Peek) : EncState :=
  match p with
  | .zero 0 => .zfb
  | .zero (d + 1) => .zc (d + 1)
  | .noZero t => .nzc t

/-- START(`S`) on the encoder (R175): the lifecycle check stands first (R214 (a)); every register is
written (R44), and the count of released segments begins anew. -/
def encStart (chain : Chain) (e : Encoder) : Except Fault (Encoder × Ports) :=
  if e.life = .owned then .error .startWhileOwned
  else
    .ok ({ e with life := .owned, state := firstState (Memory.load chain).1.peek,
                  mem := (Memory.load chain).1, released := (Memory.load chain).2 },
         { Ports.idle with rel := List.range' 0 (Memory.load chain).2 })

/-- The loop of PULL (R176): at most `max` steps, none in `FIN`. -/
def pullLoop (max : Nat) (e : Encoder) : Except Fault Production :=
  match max with
  | 0 => .ok { enc := e, bytes := [], rel := [] }
  | n + 1 =>
    if e.state = .fin then .ok { enc := e, bytes := [], rel := [] }
    else
      match encoderStep e with
      | .error fault => .error fault
      | .ok p =>
        match pullLoop n p.enc with
        | .error fault => .error fault
        | .ok q => .ok { enc := q.enc, bytes := p.bytes ++ q.bytes, rel := p.rel ++ q.rel }

/-- PULL(`max`) on the encoder (R176), the lifecycle checks first (R190, R216). -/
def encPull (max : Nat) (e : Encoder) : Except Fault Production :=
  match e.life with
  | .unstarted => .error .notStarted
  | .disposed => if e.state = .fin then pullLoop max e else .error .useAfterDispose
  | .owned => pullLoop max e

/-- ABORT on the encoder (R187): legal in any lifecycle state; nothing is released. -/
def encAbort (e : Encoder) : Except Fault (Encoder × Ports) := .ok (e.goto .fin, Ports.idle)

/-- DISPOSE on the encoder (R188): in `Owned` every retained segment goes back, head first, a partly
consumed head like the others; otherwise nothing. -/
def encDispose (e : Encoder) : Except Fault (Encoder × Ports) :=
  if e.life = .owned then
    .ok ({ e.withMemory Memory.empty e.mem.chain.length with life := .disposed },
         { Ports.idle with rel := e.releases e.mem.chain.length })
  else .ok (e, Ports.idle)

/-- START(`S`) (R175). -/
def execStart (chain : Chain) (s : State) : Host.Outcome State Fault Refusal := .next (onEncoder (encStart chain) s)

/-- PULL(`max`) (R176). -/
def execPull (max : Nat) (s : State) : Host.Outcome State Fault Refusal :=
  .next (onEncoder (producing (encPull max)) s)

/-- ABORT (R187). -/
def execAbort (s : State) : Host.Outcome State Fault Refusal := .next (onEncoder encAbort s)

/-- DISPOSE (R188). -/
def execDispose (s : State) : Host.Outcome State Fault Refusal := .next (onEncoder encDispose s)

end Sys2Proof.Machine
end

