-- ==== Sys2Proof/Machine/Dispatch.lean ====
section
/-! DEFINITION. One arm for each instruction. -/

namespace Sys2Proof.Machine

-- wire bytes, host operations, cursor, encoder steps: the order of the opcode table
def exec (i : Instr) (s : State) : Host.Outcome State Fault Refusal :=
  match i with
  | .term => Sys2Proof.Machine.execTerm s
  | .zero => Sys2Proof.Machine.execZero s
  | .runz n => Sys2Proof.Machine.execRunz n s
  | .runf => Sys2Proof.Machine.execRunf s
  | .lit d => Sys2Proof.Machine.execLit d s
  | .illz => Sys2Proof.Machine.execIllz s
  | .feed b => Sys2Proof.Machine.execFeed b s
  | .reset => Sys2Proof.Machine.execReset s
  | .start chain => Sys2Proof.Machine.execStart chain s
  | .pull max => Sys2Proof.Machine.execPull max s
  | .abort => Sys2Proof.Machine.execAbort s
  | .dispose => Sys2Proof.Machine.execDispose s
  | .peek => Sys2Proof.Machine.execPeek s
  | .cpull1 => Sys2Proof.Machine.execCpull1 s
  | .cpull n => Sys2Proof.Machine.execCpull n s
  | .zfb => Sys2Proof.Machine.execZfb s
  | .zc => Sys2Proof.Machine.execZc s
  | .zd => Sys2Proof.Machine.execZd s
  | .nzc => Sys2Proof.Machine.execNzc s
  | .nzd => Sys2Proof.Machine.execNzd s
  | .fz => Sys2Proof.Machine.execFz s
  | .fin => Sys2Proof.Machine.execFin s

end Sys2Proof.Machine
end

