-- ==== Sys2Proof/Machine/Step.lean ====
section
/-! DEFINITION. One step: the oldest pending input is taken and run; with none pending the machine holds its state. -/

namespace Sys2Proof.Machine

/-- One step of the machine: one whole operation, atomic (R13), in the order the host issued them (R75).
A request that decodes to no instruction stops the machine by name (U9). -/
def step (s : State) : Host.Outcome State Fault Refusal :=
  match fetch s with
  | none => .next (idleStep s)
  | some (.hardwareReset agent, s') => .next (hardwareReset agent s')
  | some (.request w, s') =>
    match decode w with
    | .error _ => .refused .undecodable
    | .ok i => exec i s'

/-- The state with the table word `w` of `nbits` bits placed as the request the next step takes, and the
decoder position or step tag it needs selected (notes/assumptions/6.md). -/
def State.withFetchWord (s : State) (nbits w : Nat) : State := placeRequest (tableSlot nbits w) s

end Sys2Proof.Machine
end

