-- ==== Sys2Proof/Machine/Reference.lean ====
section
/-! DEFINITION. The reference transform of the wire codec contract: `Enc` (R121), `Dec` (R123) and the length formula's
`F` (R122).  They are not the machine; the machine must agree with them (R132, R152, R192). -/

namespace Sys2Proof.Machine

/-- The length of the longest stretch without `0x00` at the front of `x` (the `r` of R121). -/
def zeroFreeLength (x : List Byte) : Nat := (x.takeWhile (fun b => b != 0x00#8)).length

/-- `Body` of R121 on fuel: each level removes a byte of `x` or ends, so `|x| + 1` levels are enough. -/
def bodyOn (fuel : Nat) (x : List Byte) : List Byte :=
  match fuel with
  | 0 => []
  | k + 1 =>
    if 254 ≤ zeroFreeLength x then 0xFF#8 :: (x.take 254 ++ bodyOn k (x.drop 254))
    else if zeroFreeLength x = x.length then BitVec.ofNat 8 (zeroFreeLength x + 1) :: x
    else BitVec.ofNat 8 (zeroFreeLength x + 1) ::
      (x.take (zeroFreeLength x) ++ bodyOn k (x.drop (zeroFreeLength x + 1)))

/-- `Body(x)` (R121): the frame of payload `x` without its terminator. -/
def body (x : List Byte) : List Byte := bodyOn (x.length + 1) x

/-- `Enc(x)` (R121): the canonical frame of payload `x`. -/
def refEnc (x : List Byte) : List Byte := body x ++ [0x00#8]

/-- `F(x)` of R122: the number of `0xFF` codes, summed over the maximal runs of `x`. -/
def fullChunks (x : List Byte) : Nat := ((x.splitOn 0x00#8).map (fun run => run.length / 254)).sum

/-- The outcome of `Dec` (R123). -/
inductive DecOutcome where
  /-- `ok(y)`. -/
  | ok (y : List Byte)
  /-- `err(UnexpectedZero, y)`: `y` is the output before the error. -/
  | err (y : List Byte)
  /-- `incomplete(y)`: no terminator in code position. -/
  | incomplete (y : List Byte)
deriving DecidableEq, Repr

/-- `a ++> R` of R123. -/
def DecOutcome.prepend (a : List Byte) (r : DecOutcome) : DecOutcome :=
  match r with
  | .ok y => .ok (a ++ y)
  | .err y => .err (a ++ y)
  | .incomplete y => .incomplete (a ++ y)

/-- `DecB` of R123 on fuel: each level removes a byte of `f` or ends, so `|f|` levels are enough. -/
def decOn (fuel : Nat) (owed : Bool) (f : List Byte) : DecOutcome :=
  match fuel, f with
  | _, [] => .incomplete []
  | 0, _ :: _ => .incomplete []
  | k + 1, c :: t =>
    if c = 0x00#8 then .ok []
    else
      let pre : List Byte := if owed then [0x00#8] else []
      let n := c.toNat - 1
      if zeroFreeLength (t.take n) < (t.take n).length then .err (pre ++ t.take (zeroFreeLength (t.take n)))
      else if t.length < n then .incomplete (pre ++ t)
      else DecOutcome.prepend (pre ++ t.take n) (decOn k (decide (c ≠ 0xFF#8)) (t.drop n))

/-- `Dec(f)` (R123). -/
def refDec (f : List Byte) : DecOutcome := decOn f.length false f

end Sys2Proof.Machine
end

