-- ==== Sys2Proof/Machine/Session.lean ====
section
/-! DEFINITION. The host's side of a session (R264, R265): operations issued in order, the response of each collected. -/

namespace Sys2Proof.Machine

/-- The operations issued one after the other (R75): the response of each, in order, and the state the last
one left; `none` if one of them stops the machine. -/
def issue (ops : List Instr) (s : State) : Option (List Ports × State) :=
  match ops with
  | [] => some ([], s)
  | i :: rest =>
    match exec i s with
    | .next s' =>
      match issue rest s' with
      | some (ps, t) => some (s'.ports :: ps, t)
      | none => none
    | .fault _ => none
    | .refused _ => none

/-- The same through `step`: `n` steps, the response ports read after each. -/
def stepMany (n : Nat) (s : State) : Option (List Ports × State) :=
  match n with
  | 0 => some ([], s)
  | k + 1 =>
    match step s with
    | .next s' =>
      match stepMany k s' with
      | some (ps, t) => some (s'.ports :: ps, t)
      | none => none
    | .fault _ => none
    | .refused _ => none

/-- The output bytes of a run of FEEDs, in order (R79). -/
def outputsOf (ps : List Ports) : List Byte := ps.flatMap (fun p => p.decOut.toList)

/-- The results of a run of FEEDs, in order. -/
def resultsOf (ps : List Ports) : List (Option FeedResult) := ps.map Ports.decRes

/-- The bytes a run of PULLs returned, concatenated (R79). -/
def frameOf (ps : List Ports) : List Byte := ps.flatMap (fun p => p.encBytes.getD [])

/-- The `release` events of a run, in order. -/
def releasesOf (ps : List Ports) : List Nat := ps.flatMap Ports.rel

end Sys2Proof.Machine
end

