-- ==== Sys2Proof/Safety.lean ====
section
/-! DEFINITION. What a safe state and a safe run are: the decoder's invariants (R23), the encoder's (R34), a host that
keeps to its interface (R166). -/

namespace Sys2Proof.Safety

open Sys2Proof.Machine

/-- R23: (a) nothing remains in `Code`; (b) 1 to 254 bytes remain in `Data`; (c) in `Finished` the counter
holds what it held, so it is still at most 254. -/
def decoderOk (d : Decoder) : Prop :=
  match d.state with
  | .code => d.remaining = 0
  | .data => 1 ≤ d.remaining.toNat ∧ d.remaining.toNat ≤ 254
  | .finished => d.remaining.toNat ≤ 254

/-- R34 (a) to (f): what each state of an owned encoder promises about its memory.  `FIN` promises nothing:
it may have been reached by ABORT. -/
def stateAgrees (t : EncState) (m : Memory) : Prop :=
  match t with
  | .zfb => m.peek = .zero 0
  | .zc nzo => m.peek = .zero nzo
  | .zd dataLeft post nzo =>
      1 ≤ dataLeft.toNat ∧ dataLeft.toNat ≤ 254 ∧ dataLeft.toNat ≤ nzo ∧ m.peek = .zero nzo ∧
        (post = .zfb → dataLeft.toNat = nzo)
  | .nzc tail => m.peek = .noZero tail
  | .nzd tail dataLeft full =>
      1 ≤ dataLeft.toNat ∧ dataLeft.toNat ≤ 254 ∧ dataLeft.toNat ≤ tail ∧ m.peek = .noZero tail ∧
        (full = false → dataLeft.toNat = tail)
  | .fz => m = Memory.empty
  | .fin => True

/-- R27, R34 (g): `enc.dataLeft` never exceeds 254, whatever the lifecycle state. -/
def dataLeftFits (t : EncState) : Prop :=
  match t with
  | .zd dataLeft _ _ => dataLeft.toNat ≤ 254
  | .nzd _ dataLeft _ => dataLeft.toNat ≤ 254
  | _ => True

/-- The encoder's invariant: the memory in normal form (R33), `dataLeft` at most 254 (R27), and for each
lifecycle state what R31, R34, R43 and R44 say of it. -/
def encoderOk (e : Encoder) : Prop :=
  e.mem.wf = true ∧ dataLeftFits e.state ∧
    (match e.life with
      | .unstarted => e.state = .fin ∧ e.mem = Memory.empty
      | .owned => stateAgrees e.state e.mem
      | .disposed => e.mem = Memory.empty)

/-- The two machines' invariants together. -/
def stateOk (s : State) : Prop := decoderOk s.dec ∧ encoderOk s.enc

/-- An input the host interface offers: one of the six operations, or hardware reset (R100, R166, R240). -/
def hostInput (i : Input) : Bool :=
  match i with
  | .request w => w.isHost
  | .hardwareReset _ => true

/-- Every pending input is one the host interface offers. -/
def hostDriven (s : State) : Prop := ∀ i ∈ s.pending, hostInput i = true

/-- The decoder's two host operations (R100). -/
def decoderOperation (i : Instr) : Bool :=
  match i with
  | .feed _ | .reset => true
  | _ => false

/-- The encoder's four host operations (R100). -/
def encoderOperation (i : Instr) : Bool :=
  match i with
  | .start _ | .pull _ | .abort | .dispose => true
  | _ => false

/-- The six operations of the host interface (R100). -/
def hostOperation (i : Instr) : Bool := decoderOperation i || encoderOperation i

/-- The instructions that act on the decoder: the wire bytes, FEED and RESET. -/
def actsOnDecoder (i : Instr) : Bool :=
  match i with
  | .term | .zero | .runz _ | .runf | .lit _ | .illz | .feed _ | .reset => true
  | _ => false

/-- The instruction that is the step `enc.state` selects (R105, R177). -/
def selectedStep (t : EncState) : Instr :=
  match t with
  | .zfb => .zfb
  | .zc _ => .zc
  | .zd _ _ _ => .zd
  | .nzc _ => .nzc
  | .nzd _ _ _ => .nzd
  | .fz => .fz
  | .fin => .fin

/-- `n` bytes were consumed and `k` segments went back (R33, R61, R73): the unconsumed bytes are the old ones
less the first `n`, the memory is in normal form, and what is left of the chain is the old chain less its first
`k` segments.  For given `n` no other `m'` and `k` will do. -/
def consumes (m : Memory) (n : Nat) (m' : Memory) (k : Nat) : Prop :=
  m'.rest = m.rest.drop n ∧ m'.wf = true ∧ m'.chain = m.chain.drop k ∧ k ≤ m.chain.length

/-- The transition table of the code bytes (R189, from R180 and R181): the next state and the byte emitted
when the next zero, or the end of the data, is where the probe says. -/
def afterProbe (p : Peek) : EncState × Byte :=
  match p with
  | .zero d =>
    if d = 0 then (.zc 0, 0x01#8)
    else if d < 254 then (.zd (BitVec.ofNat Config.encDlBits d) .zc d, BitVec.ofNat 8 (d + 1))
    else if d = 254 then (.zd 254 .zfb 254, 0xFF#8)
    else (.zd 254 .zc d, 0xFF#8)
  | .noZero t =>
    if t = 0 then (.fz, 0x01#8)
    else if t < 254 then (.nzd t (BitVec.ofNat Config.encDlBits t) false, BitVec.ofNat 8 (t + 1))
    else (.nzd t 254 true, 0xFF#8)

end Sys2Proof.Safety
end

