-- ==== Sys2Proof/Certificates/Slice0/Obligations.lean ====
section
/-! DEFINITION. The statements for the provers.

Two conventions of the model stand in all of them.  A signal an operation does not drive is absent, `Ports.idle`
(notes/assumptions/4.md).  A `release` event, which carries the identity of its segment (R73), carries the segment's
number in the chain last started, counted from 0 (notes/assumptions/7.md): `List.range' a k` are the `k` segments from
number `a` on. -/

open Sys2Proof Sys2Proof.Machine Sys2Proof.Safety

/-! ## Encodings -/

/-- Decoding an encoded well-formed instruction gives it back (R94, R95, R101, R102, R105). -/
def Obligations.DecodeOfEncodeIsTheInstruction : Prop :=
  ∀ i : Instr, i.wellFormed = true → decode (encode i) = .ok i

/-- Every byte has a meaning in both positions, and no two bytes share one: encoding it back gives the byte
(R94, R95, R98). -/
def Obligations.EveryByteIsOneInstructionInEachPosition : Prop :=
  ∀ b : Byte,
    encode (decodeWireCode b) = .wireCode b ∧ (decodeWireCode b).wellFormed = true ∧
    encode (decodeWireData b) = .wireData b ∧ (decodeWireData b).wellFormed = true

/-- The words of the spec's own example (R96), a step tag and the host's select codes (R101, R102, R105). -/
def Obligations.WordsOfTheTablesDecode : Prop :=
  decode (.wireCode 0x05#8) = .ok (.runz 4) ∧ decode (.wireData 0x05#8) = .ok (.lit 0x05#8) ∧
  decode (.wireCode 0x00#8) = .ok .term ∧ decode (.wireData 0x00#8) = .ok .illz ∧
  decode (.wireCode 0xFF#8) = .ok .runf ∧ decode (.wireData 0xFF#8) = .ok (.lit 0xFF#8) ∧
  decode (.decOp 0#1 0x02#8) = .ok (.feed 0x02#8) ∧ decode (.encOp 1#2 [] 3#32) = .ok (.pull 3) ∧
  decode (.encStep 4#3) = .ok .nzd

/-- Feeding a stretch of wire bytes runs exactly the instructions the stretch decodes to, the decoder's
position following the data counts (R93, R94, R95, R96, R140). -/
def Obligations.FeedingBytesRunsTheirInstructions : Prop :=
  ∀ (f : List Byte) (s : State), s.dec.state = .code →
    issue (decodeFrame f) s = issue ((f.take (decodeFrame f).length).map Instr.feed) s

/-! ## Steps, reset, order -/

/-- A step runs the instruction the oldest pending request decodes to, the request being taken (R13, R75). -/
def Obligations.StepRunsTheDecodedRequest : Prop :=
  ∀ (s : State) (w : Slot) (rest : List Input) (i : Instr),
    s.pending = .request w :: rest → decode w = .ok i → step s = exec i { s with pending := rest }

/-- A pending request that is no instruction (step tag 7, or bits outside the table) stops the machine by name;
the model's choice for U9, notes/assumptions/6.md. -/
def Obligations.UndecodableRequestStops : Prop :=
  ∀ (s : State) (rest : List Input) (nbits w : Nat),
    (s.pending = .request (.encStep 7#3) :: rest → step s = .refused .undecodable) ∧
    (s.pending = .request (.unassigned nbits w) :: rest → step s = .refused .undecodable)

/-- A table word placed with `withFetchWord` is what the next step runs, and from reset every such word runs
to a next state; how a word is placed is the model's choice, notes/assumptions/6.md. -/
def Obligations.PlacedTableWordRunsNext : Prop :=
  ∀ (nbits w : Nat) (i : Instr), decodeTableWord nbits w = some i →
    (∀ s : State, step (s.withFetchWord nbits w) = exec i (selectFor (tableSlot nbits w) s)) ∧
    ∃ t, step (State.reset.withFetchWord nbits w) = .next t

/-- A step that takes no request.  With nothing pending both machines stay as they are and no signal is driven (R228).
Hardware reset of one machine loads its reset values, clears the dead bit, emits no `release` and leaves the other
machine alone (R240, decision D28 of the spec; R76).  The count of released segments begins anew: the model's choice,
notes/assumptions/7.md. -/
def Obligations.IdleStepsAndHardwareResets : Prop :=
  ∀ (s : State) (rest : List Input),
    (s.pending = [] → step s = .next { s with ports := Ports.idle }) ∧
    (s.pending = .hardwareReset .decoder :: rest →
      step s = .next { s with dec := { state := .code, remaining := 0, pendingZero := false }, ports := Ports.idle,
                              pending := rest }) ∧
    (s.pending = .hardwareReset .encoder :: rest →
      step s = .next { s with enc := { life := .unstarted, state := .fin, mem := { chain := [], off := 0 },
                                       released := 0, dead := false },
                              ports := Ports.idle, pending := rest })

/-- The state after reset (R42; R43 with decision D11 of the spec): the decoder all zero, its tag too (R20), the
encoder unstarted and in `FIN` with nothing owned. -/
def Obligations.ResetStateIsAsTheSpecSays : Prop :=
  State.reset.dec.state.tag = 0#2 ∧
  State.reset.dec = { state := .code, remaining := 0, pendingZero := false } ∧
  State.reset.enc.life = .unstarted ∧ State.reset.enc.state = .fin ∧ State.reset.enc.mem.chain = [] ∧
  State.reset.enc.mem.off = 0 ∧ State.reset.enc.dead = false

/-- Requests issued to the machine run one after the other, in the order issued, each reading the state the one
before left (R75). -/
def Obligations.PendingRequestsRunInOrder : Prop :=
  ∀ (ops : List Instr) (rest : List Input) (s : State), (∀ i ∈ ops, i.wellFormed = true) →
    stepMany ops.length { s with pending := ops.map (fun i => Input.request (encode i)) ++ rest } =
      issue ops { s with pending := rest }

/-! ## The decoder -/

/-- `TERM` (R141). -/
def Obligations.TermCompletesTheFrame : Prop :=
  ∀ s : State, s.dec.state = .code →
    exec .term s = .next { s with
      dec := { s.dec with state := .finished, pendingZero := false },
      ports := { Ports.idle with decRes := some .frameComplete } }

/-- `ZERO` (R142, R143): the owed zero, if any, is this operation's output, and a zero is owed again. -/
def Obligations.ZeroPaysTheOwedZeroAndOwesOne : Prop :=
  ∀ s : State, s.dec.state = .code →
    exec .zero s = .next { s with
      dec := { s.dec with pendingZero := true },
      ports := { Ports.idle with
        decRes := some .consumed, decOut := if s.dec.pendingZero then some 0x00#8 else none } }

/-- `RUNZ n` (R142, R144). -/
def Obligations.RunzStartsARunThatOwesAZero : Prop :=
  ∀ (s : State) (n : Nat), 1 ≤ n → n ≤ 253 → s.dec.state = .code →
    exec (.runz n) s = .next { s with
      dec := { state := .data, remaining := BitVec.ofNat Config.decRemBits n, pendingZero := true },
      ports := { Ports.idle with
        decRes := some .consumed, decOut := if s.dec.pendingZero then some 0x00#8 else none } }

/-- `RUNF` (R142, R145). -/
def Obligations.RunfStartsAFullRunThatOwesNothing : Prop :=
  ∀ s : State, s.dec.state = .code →
    exec .runf s = .next { s with
      dec := { state := .data, remaining := 254, pendingZero := false },
      ports := { Ports.idle with
        decRes := some .consumed, decOut := if s.dec.pendingZero then some 0x00#8 else none } }

/-- `LIT d` (R146). -/
def Obligations.LitOutputsTheByteAndCountsDown : Prop :=
  ∀ (s : State) (d : Byte), d ≠ 0x00#8 → s.dec.state = .data →
    exec (.lit d) s = .next { s with
      dec := { s.dec with state := if s.dec.remaining - 1 = 0 then .code else .data,
                          remaining := s.dec.remaining - 1 },
      ports := { Ports.idle with decRes := some .consumed, decOut := some d } }

/-- `ILLZ` (R147, R211): only `dec.state` changes, and no output byte. -/
def Obligations.IllzRaisesUnexpectedZero : Prop :=
  ∀ s : State, s.dec.state = .data →
    exec .illz s = .next { s with
      dec := { s.dec with state := .finished },
      ports := { Ports.idle with decRes := some .unexpectedZero } }

/-- FEED in `Finished` (R148, R212): `ProtocolError`, no register changes; and it is raised nowhere else.  That a wire
instruction presented by itself in `Finished` is taken as the FEED of its byte is the model's choice,
notes/assumptions/5.md. -/
def Obligations.FinishedDecoderAnswersProtocolError : Prop :=
  ∀ (s : State) (b : Byte),
    (s.dec.state = .finished →
      exec (.feed b) s = .next { s with ports := { Ports.idle with decRes := some .protocolError } } ∧
      exec (decodeWireCode b) s = .next { s with ports := { Ports.idle with decRes := some .protocolError } } ∧
      exec (decodeWireData b) s = .next { s with ports := { Ports.idle with decRes := some .protocolError } }) ∧
    (∀ t, exec (.feed b) s = .next t → t.ports.decRes = some .protocolError → s.dec.state = .finished)

/-- A wire instruction in the other position stops by name, since there the byte is another instruction (R96);
the model's choice, notes/assumptions/5.md. -/
def Obligations.WireInstructionInTheOtherPositionStops : Prop :=
  ∀ (s : State) (b : Byte),
    (s.dec.state = .data → exec (decodeWireCode b) s = .refused .wrongPosition) ∧
    (s.dec.state = .code → exec (decodeWireData b) s = .refused .wrongPosition)

/-- FEED is total: the transition table of R150, row by row (R140 to R148). -/
def Obligations.FeedFollowsTheTransitionTable : Prop :=
  ∀ (s : State) (b : Byte),
    (s.dec.state = .code →
      exec (.feed b) s = .next { s with
        dec := if b = 0x00#8 then { s.dec with state := .finished, pendingZero := false }
               else if b = 0x01#8 then { s.dec with pendingZero := true }
               else { state := .data, remaining := b - 0x01#8, pendingZero := decide (b ≠ 0xFF#8) },
        ports := if b = 0x00#8 then { Ports.idle with decRes := some .frameComplete }
                 else { Ports.idle with
                   decRes := some .consumed, decOut := if s.dec.pendingZero then some 0x00#8 else none } }) ∧
    (s.dec.state = .data →
      exec (.feed b) s = .next { s with
        dec := if b = 0x00#8 then { s.dec with state := .finished }
               else { s.dec with state := if s.dec.remaining - 1 = 0 then .code else .data,
                                 remaining := s.dec.remaining - 1 },
        ports := if b = 0x00#8 then { Ports.idle with decRes := some .unexpectedZero }
                 else { Ports.idle with decRes := some .consumed, decOut := some b } }) ∧
    (s.dec.state = .finished →
      exec (.feed b) s = .next { s with ports := { Ports.idle with decRes := some .protocolError } })

/-- RESET (R149): the same state from every state, nothing returned, the encoder untouched. -/
def Obligations.ResetReturnsTheDecoderToItsInitialState : Prop :=
  ∀ s : State,
    exec .reset s = .next { s with
      dec := { state := .code, remaining := 0, pendingZero := false }, ports := Ports.idle }

/-- The decoder reports `FrameComplete` exactly on the terminator in code position, and with no output byte
(R128). -/
def Obligations.FrameCompleteExactlyOnTheTerminator : Prop :=
  ∀ (s t : State) (b : Byte), exec (.feed b) s = .next t →
    (t.ports.decRes = some .frameComplete ↔ s.dec.state = .code ∧ b = 0x00#8) ∧
    (t.ports.decRes = some .frameComplete → t.ports.decOut = none)

/-- An output byte comes only with `Consumed`; a zero only as the owed zero, in code position; a non-zero one only
as the literal fed, in data position (R151). -/
def Obligations.OutputBytesComeFromOwedZerosAndLiterals : Prop :=
  ∀ (s t : State) (b d : Byte), exec (.feed b) s = .next t → t.ports.decOut = some d →
    t.ports.decRes = some .consumed ∧
    (d = 0x00#8 → s.dec.state = .code ∧ s.dec.pendingZero = true ∧ b ≠ 0x00#8) ∧
    (d ≠ 0x00#8 → s.dec.state = .data ∧ d = b)

/-- A zero injected into a data run is reported at once, and every later FEED is refused until RESET; one in place of a
code byte is not detected, it reads as the terminator (R129). -/
def Obligations.ZeroInADataRunIsReportedUntilReset : Prop :=
  ∀ (s : State) (g : List Byte),
    (s.dec.state = .data →
      ∃ ps t, issue (Instr.feed 0x00#8 :: g.map Instr.feed) s = some (ps, t) ∧
        resultsOf ps = some .unexpectedZero :: List.replicate g.length (some .protocolError) ∧ outputsOf ps = [] ∧
        exec .reset t = .next { t with dec := Decoder.reset, ports := Ports.idle }) ∧
    (s.dec.state = .code → ∃ t, exec (.feed 0x00#8) s = .next t ∧ t.ports.decRes = some .frameComplete)

/-- What the decoder computes (R152): fed the bytes of `f` from its reset state, up to the first result other
than `Consumed`, it delivers the bytes and the verdict of `Dec(f)`. -/
def Obligations.DecoderComputesTheReferenceDecoding : Prop :=
  ∀ (s : State) (f : List Byte), s.dec = Decoder.reset →
    match refDec f with
    | .ok y => ∃ g h ps t, f = g ++ 0x00#8 :: h ∧ issue ((g ++ [0x00#8]).map Instr.feed) s = some (ps, t) ∧
        resultsOf ps = List.replicate g.length (some .consumed) ++ [some .frameComplete] ∧ outputsOf ps = y
    | .err y => ∃ g h ps t, f = g ++ 0x00#8 :: h ∧ issue ((g ++ [0x00#8]).map Instr.feed) s = some (ps, t) ∧
        resultsOf ps = List.replicate g.length (some .consumed) ++ [some .unexpectedZero] ∧ outputsOf ps = y
    | .incomplete y => ∃ ps t, issue (f.map Instr.feed) s = some (ps, t) ∧
        resultsOf ps = List.replicate f.length (some .consumed) ∧ outputsOf ps = y ∧ t.dec.state ≠ .finished

/-! ## The cursor -/

/-- PEEK (R160): the distance to the next zero, or none and the distance to the end; nothing is consumed. -/
def Obligations.PeekFindsTheNextZero : Prop :=
  ∀ s : State, s.enc.dead = false →
    ∃ p, exec .peek s = .next { s with ports := { Ports.idle with peek := some p } } ∧
      (∀ d, p = .zero d ↔ s.enc.mem.rest[d]? = some 0x00#8 ∧ ∀ j, j < d → s.enc.mem.rest[j]? ≠ some 0x00#8) ∧
      (∀ t, p = .noZero t ↔ t = s.enc.mem.rest.length ∧ 0x00#8 ∉ s.enc.mem.rest)

/-- CPULL1 (R162): the byte at the read position, one byte consumed, drained and empty heads released; the
numbers of the `release` events are the model's, notes/assumptions/7.md. -/
def Obligations.Cpull1ConsumesOneByte : Prop :=
  ∀ (s : State) (b : Byte) (r : List Byte), s.enc.dead = false → s.enc.mem.wf = true → s.enc.mem.rest = b :: r →
    ∃ m k, consumes s.enc.mem 1 m k ∧
      exec .cpull1 s = .next { s with
        enc := { s.enc with mem := m, released := s.enc.released + k },
        ports := { Ports.idle with pulled := some [b], rel := List.range' s.enc.released k } }

/-- CPULL (R163): exactly `n` bytes, in order; the numbers of the `release` events are the model's,
notes/assumptions/7.md. -/
def Obligations.CpullConsumesExactlyNBytes : Prop :=
  ∀ (s : State) (n : Nat), s.enc.dead = false → s.enc.mem.wf = true → n ≤ s.enc.mem.rest.length →
    ∃ m k, consumes s.enc.mem n m k ∧
      exec (.cpull n) s = .next { s with
        enc := { s.enc with mem := m, released := s.enc.released + k },
        ports := { Ports.idle with
          pulled := some (s.enc.mem.rest.take n), rel := List.range' s.enc.released k } }

/-- A pull of more bytes than remain, by the cursor or by a step that pulls, takes `CursorUnderrun`: nothing is
consumed or released, the encoder is dead (R164; R214 with decisions D20 and D23 of the spec).  `ports.fault` is the
model's own record of the fault, notes/assumptions/1.md. -/
def Obligations.PullingTooMuchTakesCursorUnderrun : Prop :=
  ∀ (s : State) (n : Nat), s.enc.dead = false →
    (s.enc.mem.rest = [] → exec .cpull1 s = .next { s with
      enc := { s.enc with dead := true }, ports := { Ports.idle with fault := some .cursorUnderrun } }) ∧
    (s.enc.mem.rest.length < n → exec (.cpull n) s = .next { s with
      enc := { s.enc with dead := true }, ports := { Ports.idle with fault := some .cursorUnderrun } }) ∧
    (s.enc.mem.rest = [] →
      s.enc.state = .zc 0 ∨ (∃ dataLeft post nzo, s.enc.state = .zd dataLeft post nzo) ∨
        (∃ tail dataLeft full, s.enc.state = .nzd tail dataLeft full) →
      exec (selectedStep s.enc.state) s = .next { s with
        enc := { s.enc with dead := true }, ports := { Ports.idle with fault := some .cursorUnderrun } })

/-! ## The encoder's steps -/

/-- Step `ZFB` (R178). -/
def Obligations.ZfbEmitsTheEmptyChunk : Prop :=
  ∀ s : State, s.enc.dead = false → s.enc.state = .zfb →
    exec .zfb s = .next { s with
      enc := { s.enc with state := .zc 0 }, ports := { Ports.idle with encBytes := some [0x01#8] } }

/-- Step `ZC` (R179 with R180 and R181): off a zero the known distance is chunked; on a zero it is consumed, and the
chunk is chosen by a fresh probe of the rest. -/
def Obligations.ZcEmitsTheCodeOfTheNextChunk : Prop :=
  ∀ (s : State) (n : Nat), s.enc.dead = false → s.enc.state = .zc n →
    (n ≠ 0 → exec .zc s = .next { s with
      enc := { s.enc with state := (afterProbe (.zero n)).1 },
      ports := { Ports.idle with encBytes := some [(afterProbe (.zero n)).2] } }) ∧
    (n = 0 → ∀ b r, s.enc.mem.wf = true → s.enc.mem.rest = b :: r →
      ∃ m k, consumes s.enc.mem 1 m k ∧
        exec .zc s = .next { s with
          enc := { s.enc with state := (afterProbe (probe r)).1, mem := m, released := s.enc.released + k },
          ports := { Ports.idle with
            encBytes := some [(afterProbe (probe r)).2], rel := List.range' s.enc.released k } })

/-- Step `ZD` (R182). -/
def Obligations.ZdEmitsAPayloadByteAndReturnsThroughPost : Prop :=
  ∀ (s : State) (dataLeft : BitVec Config.encDlBits) (nzo : Nat) (post : Post) (b : Byte) (r : List Byte),
    s.enc.dead = false → s.enc.state = .zd dataLeft post nzo → s.enc.mem.wf = true → s.enc.mem.rest = b :: r →
    ∃ m k, consumes s.enc.mem 1 m k ∧
      exec .zd s = .next { s with
        enc := { s.enc with
          state := if dataLeft - 1 = 0 then (match post with | .zfb => .zfb | .zc => .zc (nzo - 1))
                   else .zd (dataLeft - 1) post (nzo - 1),
          mem := m, released := s.enc.released + k },
        ports := { Ports.idle with encBytes := some [b], rel := List.range' s.enc.released k } }

/-- Step `NZC` (R183 with R181): nothing is consumed. -/
def Obligations.NzcEmitsTheCodeOfTheTail : Prop :=
  ∀ (s : State) (tail : Nat), s.enc.dead = false → s.enc.state = .nzc tail →
    exec .nzc s = .next { s with
      enc := { s.enc with state := (afterProbe (.noZero tail)).1 },
      ports := { Ports.idle with encBytes := some [(afterProbe (.noZero tail)).2] } }

/-- Step `NZD` (R184): after a full chunk to `NZC`, even when the tail is used up; after a short one to `FZ`. -/
def Obligations.NzdEmitsAPayloadByteOfTheTail : Prop :=
  ∀ (s : State) (tail : Nat) (dataLeft : BitVec Config.encDlBits) (full : Bool) (b : Byte) (r : List Byte),
    s.enc.dead = false → s.enc.state = .nzd tail dataLeft full → s.enc.mem.wf = true → s.enc.mem.rest = b :: r →
    ∃ m k, consumes s.enc.mem 1 m k ∧
      exec .nzd s = .next { s with
        enc := { s.enc with
          state := if dataLeft - 1 = 0 then (if full = true then .nzc (tail - 1) else .fz)
                   else .nzd (tail - 1) (dataLeft - 1) full,
          mem := m, released := s.enc.released + k },
        ports := { Ports.idle with encBytes := some [b], rel := List.range' s.enc.released k } }

/-- Step `FZ` (R185). -/
def Obligations.FzEmitsTheTerminator : Prop :=
  ∀ s : State, s.enc.dead = false → s.enc.state = .fz →
    exec .fz s = .next { s with
      enc := { s.enc with state := .fin }, ports := { Ports.idle with encBytes := some [0x00#8] } }

/-- Step `FIN` (R186): nothing is produced and nothing changes. -/
def Obligations.FinProducesNothing : Prop :=
  ∀ s : State, s.enc.dead = false → s.enc.state = .fin →
    exec .fin s = .next { s with ports := { Ports.idle with encBytes := some [] } }

/-- A step that `enc.state` does not select stops by name (R105, R177); the model's choice,
notes/assumptions/5.md. -/
def Obligations.StepOfAnotherTagStops : Prop :=
  ∀ (s : State) (t : EncState), t.tag ≠ s.enc.state.tag →
    exec (selectedStep t) s = .refused .stepNotSelected

/-- One byte per step, and at most one payload byte consumed (R191); off a faulting step. -/
def Obligations.EachStepEmitsExactlyOneByte : Prop :=
  ∀ (e : Encoder) (p : Production), e.mem.wf = true → e.state ≠ .fin → encoderStep e = .ok p →
    p.bytes.length = 1 ∧ ∃ n k, n ≤ 1 ∧ consumes e.mem n p.enc.mem k ∧ p.enc.released = e.released + k ∧
      p.rel = List.range' e.released k

/-! ## The encoder's host operations -/

/-- START (R175): the chain is owned, empty heads go back, and the first state follows from the probe; every
register is written. -/
def Obligations.StartOwnsTheChainAndProbes : Prop :=
  ∀ (s : State) (chain : Chain), s.enc.dead = false → s.enc.life ≠ .owned →
    ∃ m k, consumes { chain := chain, off := 0 } 0 m k ∧ m.off = 0 ∧ (∀ seg ∈ chain.take k, seg = []) ∧
      exec (.start chain) s = .next { s with
        enc := { life := .owned,
                 state := match probe chain.flatten with
                   | .zero 0 => .zfb
                   | .zero (d + 1) => .zc (d + 1)
                   | .noZero t => .nzc t,
                 mem := m, released := k, dead := false },
        ports := { Ports.idle with rel := List.range k } }

/-- No value of an earlier frame leaks into a frame (R243): what START leaves depends on the chain alone. -/
def Obligations.StartForgetsEarlierFrames : Prop :=
  ∀ (s s' t t' : State) (chain : Chain), s.enc.dead = false → s'.enc.dead = false →
    s.enc.life ≠ .owned → s'.enc.life ≠ .owned →
    exec (.start chain) s = .next t → exec (.start chain) s' = .next t' → t.enc = t'.enc ∧ t.ports = t'.ports

/-- PULL (R176) on an owned encoder completes: at most `max` bytes, fewer only when the frame is over; the decoder,
the lifecycle register and the dead bit stay. -/
def Obligations.PullCompletesOnAnOwnedEncoder : Prop :=
  ∀ (s : State) (max : Nat), s.enc.dead = false → s.enc.life = .owned → encoderOk s.enc →
    ∃ st m k bytes, (∃ n, n ≤ bytes.length ∧ consumes s.enc.mem n m k) ∧
      exec (.pull max) s = .next { s with
        enc := { s.enc with state := st, mem := m, released := s.enc.released + k },
        ports := { Ports.idle with encBytes := some bytes, rel := List.range' s.enc.released k } } ∧
      bytes.length ≤ max ∧ (bytes.length < max → st = .fin) ∧
      (s.enc.state ≠ .fin → st = .fin → m = Memory.empty)

/-- PULL(1) is exactly one step, the one `enc.state` selects (R105, R191). -/
def Obligations.PullOfOneIsOneStep : Prop :=
  ∀ s : State, s.enc.life = .owned → exec (.pull 1) s = exec (selectedStep s.enc.state) s

/-- PULL(0) in any state in which PULL is legal, and PULL in `FIN`, return no byte and change nothing (R176 (b), (d);
decision D24 of the spec). -/
def Obligations.PullOfNothingAndPullInFinChangeNothing : Prop :=
  ∀ (s : State) (max : Nat), s.enc.dead = false → s.enc.life ≠ .unstarted →
    (s.enc.state = .fin → exec (.pull max) s = .next { s with ports := { Ports.idle with encBytes := some [] } }) ∧
    (s.enc.life = .owned → exec (.pull 0) s = .next { s with ports := { Ports.idle with encBytes := some [] } })

/-- Two PULLs give what one PULL of the sum gives (R127, R176 (e)). -/
def Obligations.PullsConcatenate : Prop :=
  ∀ (s : State) (m n : Nat), s.enc.dead = false → s.enc.life = .owned → encoderOk s.enc →
    ∃ t u v a b, exec (.pull m) s = .next t ∧ exec (.pull n) t = .next u ∧ exec (.pull (m + n)) s = .next v ∧
      t.ports.encBytes = some a ∧ u.ports.encBytes = some b ∧ v.ports.encBytes = some (a ++ b) ∧
      v.ports.rel = t.ports.rel ++ u.ports.rel ∧ v.enc = u.enc

/-- The lifecycle faults (R190, decision D25 of the spec; R214): PULL before START, PULL after DISPOSE in mid-frame,
START while a chain is owned; nothing but the dead bit is written.  `ports.fault` is the model's own record of the
fault, notes/assumptions/1.md. -/
def Obligations.LifecycleFaultsKillTheEncoder : Prop :=
  ∀ (s : State) (max : Nat) (chain : Chain), s.enc.dead = false →
    (s.enc.life = .unstarted → exec (.pull max) s = .next { s with
      enc := { s.enc with dead := true }, ports := { Ports.idle with fault := some .notStarted } }) ∧
    (s.enc.life = .disposed → s.enc.state ≠ .fin → exec (.pull max) s = .next { s with
      enc := { s.enc with dead := true }, ports := { Ports.idle with fault := some .useAfterDispose } }) ∧
    (s.enc.life = .owned → exec (.start chain) s = .next { s with
      enc := { s.enc with dead := true }, ports := { Ports.idle with fault := some .startWhileOwned } })

/-- ABORT (R187): to `FIN` from any state in any lifecycle state; nothing is released; a later PULL returns
nothing. -/
def Obligations.AbortForcesFinAndKeepsTheChain : Prop :=
  ∀ (s : State) (max : Nat), s.enc.dead = false →
    exec .abort s = .next { s with enc := { s.enc with state := .fin }, ports := Ports.idle } ∧
    (s.enc.life ≠ .unstarted →
      issue [.abort, .pull max] s = some ([Ports.idle, { Ports.idle with encBytes := some [] }],
        { s with enc := { s.enc with state := .fin }, ports := { Ports.idle with encBytes := some [] } }))

/-- DISPOSE (R188): in `Owned` every retained segment goes back, head first; otherwise nothing; a second DISPOSE
does nothing more. -/
def Obligations.DisposeReleasesWhatIsRetained : Prop :=
  ∀ s : State, s.enc.dead = false →
    (s.enc.life = .owned → exec .dispose s = .next { s with
      enc := { s.enc with life := .disposed, mem := { chain := [], off := 0 },
                          released := s.enc.released + s.enc.mem.chain.length },
      ports := { Ports.idle with rel := List.range' s.enc.released s.enc.mem.chain.length } }) ∧
    (s.enc.life ≠ .owned → exec .dispose s = .next { s with ports := Ports.idle }) ∧
    (∀ t, exec .dispose s = .next t → exec .dispose t = .next { t with ports := Ports.idle })

/-- A dead encoder (R214 (c), decision D20 of the spec): every encoder and cursor operation changes nothing and
returns nothing, and no instruction clears the dead bit.  That such a refused operation answers a next state is the
model's choice, notes/assumptions/1.md. -/
def Obligations.DeadEncoderRefusesEveryOperation : Prop :=
  ∀ (s : State) (i : Instr), s.enc.dead = true →
    (encoderOperation i = true ∨ i = .peek ∨ i = .cpull1 ∨ (∃ n, i = .cpull n) ∨ i = selectedStep s.enc.state →
      exec i s = .next { s with ports := Ports.idle }) ∧
    (∀ t, exec i s = .next t → t.enc = s.enc)

/-! ## The encoder as a whole -/

/-- What the encoder computes (R132, R192): START and PULLs of any sizes produce the frame `Enc` of the payload, cut
off where the PULLs end; once the whole frame is out every segment has been released exactly once, in order. -/
def Obligations.EncoderComputesTheReferenceFrame : Prop :=
  ∀ (s : State) (chain : Chain) (ms : List Nat), s.enc.dead = false → s.enc.life ≠ .owned →
    ∃ ps t, issue (.start chain :: ms.map Instr.pull) s = some (ps, t) ∧
      frameOf ps = (refEnc chain.flatten).take ms.sum ∧ t.enc.life = .owned ∧ t.enc.dead = false ∧
      ((refEnc chain.flatten).length ≤ ms.sum →
        t.enc.state = .fin ∧ t.enc.mem = Memory.empty ∧ releasesOf ps = List.range chain.length)

/-- Every segment handed over comes back exactly once, in order, when the session ends with DISPOSE, wherever it
stops and with or without ABORT (R71, R188). -/
def Obligations.EverySegmentComesBackExactlyOnce : Prop :=
  ∀ (s : State) (chain : Chain) (ms : List Nat) (aborted : Bool), s.enc.dead = false → s.enc.life ≠ .owned →
    ∃ ps t, issue (.start chain :: ms.map Instr.pull ++ (if aborted = true then [.abort, .dispose] else [.dispose])) s =
        some (ps, t) ∧
      releasesOf ps = List.range chain.length ∧ t.enc.life = .disposed ∧ t.enc.mem = Memory.empty

/-- Round trip (R124): the encoder's whole output for a payload, fed to a fresh decoder, delivers the payload and ends
with `FrameComplete` on the last byte. -/
def Obligations.EncodedFrameDecodesToThePayload : Prop :=
  ∀ (s : State) (chain : Chain) (max : Nat), s.enc.dead = false → s.enc.life ≠ .owned → s.dec = Decoder.reset →
    (refEnc chain.flatten).length ≤ max →
    refDec (refEnc chain.flatten) = .ok chain.flatten ∧
    ∃ ps t qs u, issue [.start chain, .pull max] s = some (ps, t) ∧
      issue ((frameOf ps).map Instr.feed) t = some (qs, u) ∧ outputsOf qs = chain.flatten ∧
      resultsOf qs =
        List.replicate ((frameOf ps).length - 1) (some .consumed) ++ [some .frameComplete]

/-- Zero-free body (R125): the encoder's output holds no `0x00` but its last byte. -/
def Obligations.FrameHoldsNoZeroButTheLast : Prop :=
  (∀ x : List Byte, 0x00#8 ∉ body x) ∧
  ∀ (s t : State) (chain : Chain) (ms : List Nat) (ps : List Ports), s.enc.dead = false → s.enc.life ≠ .owned →
    issue (.start chain :: ms.map Instr.pull) s = some (ps, t) → 0x00#8 ∉ (frameOf ps).dropLast

/-- The length of a frame (R122) and its bound (R126), met with equality exactly for a payload without zeros whose
length is a multiple of 254. -/
def Obligations.FrameLengthAndItsBound : Prop :=
  ∀ x : List Byte,
    (refEnc x).length = x.length + 2 + fullChunks x ∧
    (refEnc x).length ≤ x.length + (x.length + 253) / 254 + 2 ∧
    ((refEnc x).length = x.length + (x.length + 253) / 254 + 2 ↔ 0x00#8 ∉ x ∧ x.length % 254 = 0)

/-! ## The machine as a whole -/

/-- The invariants hold after reset (R23, R34). -/
def Obligations.InvariantsHoldAtReset : Prop := stateOk State.reset ∧ hostDriven State.reset

/-- From every state that meets the invariants of both machines (R23, R34), under a host that keeps to its interface
(R166), a step gives a state that meets them. -/
def Obligations.EveryStepKeepsTheInvariants : Prop :=
  ∀ s t : State, stateOk s → hostDriven s → step s = .next t → stateOk t ∧ hostDriven t

/-- No request of the host interface stops the machine: under a host that keeps to its interface `step` answers a next
state.  That a request which faults, and one to a dead encoder, which R214 (c) calls refused, answer a next state as
well is the model's choice, notes/assumptions/1.md. -/
def Obligations.HostRequestsNeverStopTheMachine : Prop :=
  ∀ s : State, hostDriven s → ∃ t, step s = .next t

/-- Which faults occur (R215): exactly those of the lifecycle table, and `CursorUnderrun` never.
That a fault answers a next state, and `ports.fault` with it, is the model's choice, notes/assumptions/1.md. -/
def Obligations.FaultsOccurExactlyInTheLifecycleCells : Prop :=
  ∀ (i : Instr) (s t : State) (f : Fault), hostOperation i = true → stateOk s → exec i s = .next t →
    (t.ports.fault = some f ↔
      s.enc.dead = false ∧
        ((f = .notStarted ∧ (∃ max, i = .pull max) ∧ s.enc.life = .unstarted) ∨
         (f = .useAfterDispose ∧ (∃ max, i = .pull max) ∧ s.enc.life = .disposed ∧ s.enc.state ≠ .fin) ∨
         (f = .startWhileOwned ∧ (∃ chain, i = .start chain) ∧ s.enc.life = .owned)))

/-- The frame over the two machines (R76): an instruction of the one leaves every register of the other, and the
inputs not yet taken, as they were. -/
def Obligations.EachInstructionLeavesTheOtherMachineAlone : Prop :=
  ∀ (i : Instr) (s t : State), exec i s = .next t →
    t.pending = s.pending ∧ (actsOnDecoder i = true → t.enc = s.enc) ∧ (actsOnDecoder i = false → t.dec = s.dec)

/-- The frame over memory for what consumes nothing: every byte reads as before (R65, R66). -/
def Obligations.MemoryIsUntouchedByWhatConsumesNothing : Prop :=
  ∀ (i : Instr) (s t : State), actsOnDecoder i = true ∨ i = .peek ∨ i = .abort ∨ i = .zfb ∨ i = .nzc ∨ i = .fz ∨ i = .fin →
    exec i s = .next t → ∀ k, t.enc.mem.byteAt k = s.enc.mem.byteAt k

/-- The hardware never writes a byte of the chain (R66): after any instruction but START, which loads a new one, what
is unconsumed is the old bytes less some at the front.  That the memory stays in the normal form of R33 rests on the
spec's own decision D13, notes/assumptions/12.md and 13.md. -/
def Obligations.NoInstructionWritesTheChain : Prop :=
  ∀ (i : Instr) (s t : State), s.enc.mem.wf = true → (∀ chain, i ≠ .start chain) → exec i s = .next t →
    t.enc.mem.wf = true ∧ ∃ n, ∀ k, t.enc.mem.byteAt k = s.enc.mem.byteAt (n + k)

/-- Two machines (R76): in any interleaving of host operations the decoder answers as if only its own had been
issued, and so does the encoder. -/
def Obligations.InterleavingDoesNotShow : Prop :=
  ∀ (ops : List Instr) (s t : State) (ps : List Ports), (∀ i ∈ ops, hostOperation i = true) →
    issue ops s = some (ps, t) →
    (∃ qs u, issue (ops.filter decoderOperation) s = some (qs, u) ∧ u.dec = t.dec ∧ outputsOf qs = outputsOf ps ∧
      (resultsOf qs).reduceOption = (resultsOf ps).reduceOption) ∧
    (∃ qs u, issue (ops.filter encoderOperation) s = some (qs, u) ∧ u.enc = t.enc ∧ frameOf qs = frameOf ps ∧
      releasesOf qs = releasesOf ps)
end

