-- ==== Sys2Proof/Laws/Counters.lean ====
section
/-! SUPPORT. The 8-bit counters `dec.remaining` and `enc.dataLeft`: a load and a decrement lose nothing in the range the
rules use them in (R133 to R136), so in every reachable state they count as natural numbers do. -/

namespace Sys2Proof.Machine

/-- A count below the width's bound fits the counter it is loaded into. -/
theorem counter_load {w n : Nat} (h : n < 2 ^ w) : (BitVec.ofNat w n).toNat = n := by
  rw [BitVec.toNat_ofNat, Nat.mod_eq_of_lt h]

/-- The decrement of a counter that is at least 1 does not wrap (R135). -/
theorem counter_decrement {w : Nat} {c : BitVec w} (h : 1 ≤ c.toNat) : (c - 1).toNat = c.toNat - 1 := by
  have hw : (1 : BitVec w).toNat = 1 := counter_load (Nat.lt_of_le_of_lt h c.isLt)
  rw [BitVec.toNat_sub_of_le (by rw [BitVec.le_def, hw]; exact h), hw]

/-- The transition test, equality with 0 after the decrement (R135), asks whether the count was 1. -/
theorem counter_ended_iff {w : Nat} {c : BitVec w} (h : 1 ≤ c.toNat) : c - 1 = 0 ↔ c.toNat = 1 := by
  rw [← BitVec.toNat_inj, counter_decrement h, BitVec.ofNat_eq_ofNat, BitVec.toNat_ofNat, Nat.zero_mod]
  omega

/-- Every chunk fits its counter (R27). -/
theorem chunkLength_load (d : Nat) : (BitVec.ofNat Config.encDlBits (chunkLength d)).toNat = chunkLength d := by
  apply counter_load
  unfold chunkLength Config.encDlBits
  split
  · next h => exact Nat.lt_trans h (by decide)
  · decide

/-- The data count of a code byte, as FEED loads it, is the byte less 1 (R92, R134). -/
theorem dataCount_load {b : Byte} (h : b ≠ 0x00#8) : BitVec.ofNat Config.decRemBits (dataCount b) = b - 0x01#8 := by
  have h0 : b.toNat ≠ 0 := fun h' => h (BitVec.eq_of_toNat_eq (by simpa using h'))
  apply BitVec.eq_of_toNat_eq
  have hd : (b - 0x01#8).toNat = b.toNat - 1 := counter_decrement (by omega)
  rw [hd]
  exact counter_load (Nat.lt_of_le_of_lt (Nat.sub_le _ _) b.isLt)

end Sys2Proof.Machine
end

