-- ==== Sys2Proof/Laws/Decode.lean ====
section
/-! SUPPORT. The small facts of the code byte: its count, its range, and that the two assemble to each other (R92, R133,
R134). -/

namespace Sys2Proof

/-- A byte is zero exactly when its number is. -/
theorem byte_toNat_ne_zero {b : Byte} (h : b ≠ 0x00#8) : b.toNat ≠ 0 := fun h' =>
  h (BitVec.eq_of_toNat_eq (by simpa using h'))

/-- Assembling the code of the count a code byte announces gives the byte back. -/
theorem codeByte_dataCount {b : Byte} (h : b ≠ 0x00#8) : codeByte (dataCount b) = b := by
  apply BitVec.eq_of_toNat_eq
  have := byte_toNat_ne_zero h
  have := b.isLt
  simp only [codeByte, dataCount, BitVec.toNat_ofNat]
  omega

/-- The code of a chunk announces the chunk's length. -/
theorem dataCount_codeByte {n : Nat} (h : n ≤ 254) : dataCount (codeByte n) = n := by
  simp only [codeByte, dataCount, BitVec.toNat_ofNat]
  omega

theorem codeByte_ne_zero {n : Nat} (h : n ≤ 254) : codeByte n ≠ 0x00#8 := by
  intro h'
  have := congrArg BitVec.toNat h'
  simp only [codeByte, BitVec.toNat_ofNat] at this
  omega

theorem codeByte_ne_one {n : Nat} (h : n ≤ 254) (h1 : 1 ≤ n) : codeByte n ≠ 0x01#8 := by
  intro h'
  have := congrArg BitVec.toNat h'
  simp only [codeByte, BitVec.toNat_ofNat] at this
  omega

theorem codeByte_ne_full {n : Nat} (h : n ≤ 253) : codeByte n ≠ 0xFF#8 := by
  intro h'
  have := congrArg BitVec.toNat h'
  simp only [codeByte, BitVec.toNat_ofNat] at this
  omega

/-- The count of a code byte that is none of the three special values (R94). -/
theorem dataCount_bounds {b : Byte} (h0 : b ≠ 0x00#8) (h1 : b ≠ 0x01#8) (h255 : b ≠ 0xFF#8) :
    1 ≤ dataCount b ∧ dataCount b ≤ 253 := by
  have := byte_toNat_ne_zero h0
  have : b.toNat ≠ 1 := fun h => h1 (BitVec.eq_of_toNat_eq (by simpa using h))
  have : b.toNat ≠ 255 := fun h => h255 (BitVec.eq_of_toNat_eq (by simpa using h))
  have := b.isLt
  simp only [dataCount]
  omega

end Sys2Proof
end

