-- ==== Sys2Proof/Laws/State.lean ====
section
/-! SUPPORT. One lemma for each field under each update of the state, true by `rfl`, so that no later proof unfolds a
record update; and the fields of the two responses every operation builds. -/

namespace Sys2Proof.Machine

/-! ## `State.answerDec` -/

@[simp] theorem answerDec_dec (s : State) (d : Decoder) (p : Ports) : (s.answerDec d p).dec = d := rfl
@[simp] theorem answerDec_enc (s : State) (d : Decoder) (p : Ports) : (s.answerDec d p).enc = s.enc := rfl
@[simp] theorem answerDec_ports (s : State) (d : Decoder) (p : Ports) : (s.answerDec d p).ports = p := rfl
@[simp] theorem answerDec_pending (s : State) (d : Decoder) (p : Ports) : (s.answerDec d p).pending = s.pending := rfl

/-! ## `State.answerEnc` -/

@[simp] theorem answerEnc_dec (s : State) (e : Encoder) (p : Ports) : (s.answerEnc e p).dec = s.dec := rfl
@[simp] theorem answerEnc_enc (s : State) (e : Encoder) (p : Ports) : (s.answerEnc e p).enc = e := rfl
@[simp] theorem answerEnc_ports (s : State) (e : Encoder) (p : Ports) : (s.answerEnc e p).ports = p := rfl
@[simp] theorem answerEnc_pending (s : State) (e : Encoder) (p : Ports) : (s.answerEnc e p).pending = s.pending := rfl

/-! ## `Encoder.goto` -/

@[simp] theorem goto_state (e : Encoder) (t : EncState) : (e.goto t).state = t := rfl
@[simp] theorem goto_life (e : Encoder) (t : EncState) : (e.goto t).life = e.life := rfl
@[simp] theorem goto_mem (e : Encoder) (t : EncState) : (e.goto t).mem = e.mem := rfl
@[simp] theorem goto_released (e : Encoder) (t : EncState) : (e.goto t).released = e.released := rfl
@[simp] theorem goto_dead (e : Encoder) (t : EncState) : (e.goto t).dead = e.dead := rfl

/-! ## `Encoder.withMemory` -/

@[simp] theorem withMemory_state (e : Encoder) (m : Memory) (k : Nat) : (e.withMemory m k).state = e.state := rfl
@[simp] theorem withMemory_life (e : Encoder) (m : Memory) (k : Nat) : (e.withMemory m k).life = e.life := rfl
@[simp] theorem withMemory_mem (e : Encoder) (m : Memory) (k : Nat) : (e.withMemory m k).mem = m := rfl
@[simp] theorem withMemory_released (e : Encoder) (m : Memory) (k : Nat) :
    (e.withMemory m k).released = e.released + k := rfl
@[simp] theorem withMemory_dead (e : Encoder) (m : Memory) (k : Nat) : (e.withMemory m k).dead = e.dead := rfl

/-! ## Responses -/

@[simp] theorem feedResponse_decRes (r : FeedResult) (o : Option Byte) : (feedResponse r o).decRes = some r := rfl
@[simp] theorem feedResponse_decOut (r : FeedResult) (o : Option Byte) : (feedResponse r o).decOut = o := rfl
@[simp] theorem feedResponse_encBytes (r : FeedResult) (o : Option Byte) : (feedResponse r o).encBytes = none := rfl
@[simp] theorem feedResponse_rel (r : FeedResult) (o : Option Byte) : (feedResponse r o).rel = [] := rfl
@[simp] theorem feedResponse_fault (r : FeedResult) (o : Option Byte) : (feedResponse r o).fault = none := rfl
@[simp] theorem raiseResult_fst (r : FeedResult) (d : Decoder) : (raiseResult r d).1 = d := rfl
@[simp] theorem raiseResult_snd (r : FeedResult) (d : Decoder) : (raiseResult r d).2 = feedResponse r none := rfl
@[simp] theorem response_enc (p : Production) : p.response.1 = p.enc := rfl
@[simp] theorem response_encBytes (p : Production) : p.response.2.encBytes = some p.bytes := rfl
@[simp] theorem response_rel (p : Production) : p.response.2.rel = p.rel := rfl
@[simp] theorem response_fault (p : Production) : p.response.2.fault = none := rfl
@[simp] theorem idle_decRes : Ports.idle.decRes = none := rfl
@[simp] theorem idle_decOut : Ports.idle.decOut = none := rfl
@[simp] theorem idle_encBytes : Ports.idle.encBytes = none := rfl
@[simp] theorem idle_rel : Ports.idle.rel = [] := rfl
@[simp] theorem idle_fault : Ports.idle.fault = none := rfl

/-! ## Taking a fault, and hardware reset -/

@[simp] theorem takeFault_dec (f : Fault) (s : State) : (takeFault f s).dec = s.dec := rfl
@[simp] theorem takeFault_pending (f : Fault) (s : State) : (takeFault f s).pending = s.pending := rfl
@[simp] theorem takeFault_dead (f : Fault) (s : State) : (takeFault f s).enc.dead = true := rfl
@[simp] theorem takeFault_life (f : Fault) (s : State) : (takeFault f s).enc.life = s.enc.life := rfl
@[simp] theorem takeFault_state (f : Fault) (s : State) : (takeFault f s).enc.state = s.enc.state := rfl
@[simp] theorem takeFault_mem (f : Fault) (s : State) : (takeFault f s).enc.mem = s.enc.mem := rfl
@[simp] theorem takeFault_released (f : Fault) (s : State) : (takeFault f s).enc.released = s.enc.released := rfl
@[simp] theorem takeFault_fault (f : Fault) (s : State) : (takeFault f s).ports.fault = some f := rfl
@[simp] theorem takeFault_encBytes (f : Fault) (s : State) : (takeFault f s).ports.encBytes = none := rfl
@[simp] theorem takeFault_rel (f : Fault) (s : State) : (takeFault f s).ports.rel = [] := rfl
@[simp] theorem hardwareReset_pending (a : Agent) (s : State) : (hardwareReset a s).pending = s.pending := by
  cases a <;> rfl

end Sys2Proof.Machine
end

