-- ==== Sys2Proof/Laws/Memory.lean ====
section
/-! SUPPORT. The laws of the memory: every operation keeps the normal form (R33), and each operation said once in terms of
the unconsumed bytes `rest`, which is all an answer depends on (R63). -/

namespace Sys2Proof.Machine

@[simp] theorem empty_wf : Memory.empty.wf = true := rfl
@[simp] theorem empty_rest : Memory.empty.rest = [] := rfl
@[simp] theorem rest_nil (off : Nat) : Memory.rest { chain := [], off := off } = [] := rfl
@[simp] theorem rest_cons (s : Segment) (t : Chain) (off : Nat) :
    Memory.rest { chain := s :: t, off := off } = s.drop off ++ t.flatten := rfl
theorem peek_eq_probe (m : Memory) : m.peek = probe m.rest := rfl

/-- A memory in normal form holds nothing exactly when its chain is empty. -/
theorem rest_eq_nil_of_wf {m : Memory} (h : m.wf = true) : m.rest = [] ↔ m = Memory.empty := by
  rcases m with ⟨_ | ⟨s, t⟩, off⟩
  · simp_all [Memory.wf, Memory.empty]
  · have : off < s.length := by simpa [Memory.wf] using h
    simp [Memory.empty, List.drop_eq_nil_iff]
    omega

/-! ## The release loop -/

/-- The release loop restores the normal form, from any offset within the head segment. -/
theorem settle_wf (chain : Chain) (off : Nat) (h : ∀ s t, chain = s :: t → off ≤ s.length) :
    (settle chain off).1.wf = true := by
  induction chain generalizing off with
  | nil => rfl
  | cons s t ih =>
    unfold settle
    have := h s t rfl
    split
    · exact ih 0 (fun _ _ _ => Nat.zero_le _)
    · simp only [Memory.wf, decide_eq_true_eq]; omega

/-- The release loop leaves the unconsumed bytes as they are. -/
theorem settle_rest (chain : Chain) (off : Nat) :
    (settle chain off).1.rest = Memory.rest { chain := chain, off := off } := by
  induction chain generalizing off with
  | nil => rfl
  | cons s t ih =>
    unfold settle
    split
    · next h =>
      rw [ih 0]
      subst h
      cases t <;> simp
    · rfl

/-- What went back are the first segments, as many as counted. -/
theorem settle_chain (chain : Chain) (off : Nat) :
    (settle chain off).1.chain = chain.drop (settle chain off).2 := by
  induction chain generalizing off with
  | nil => rfl
  | cons s t ih =>
    unfold settle
    split
    · simpa using ih 0
    · rfl

/-- No more segments go back than there are. -/
theorem settle_count_le (chain : Chain) (off : Nat) : (settle chain off).2 ≤ chain.length := by
  induction chain generalizing off with
  | nil => simp [settle]
  | cons s t ih =>
    unfold settle
    have := ih 0
    split <;> simp_all

/-- Started at the front, the loop gives back empty segments only. -/
theorem settle_zero_empty (chain : Chain) : ∀ s ∈ chain.take (settle chain 0).2, s = [] := by
  induction chain with
  | nil => simp [settle]
  | cons s t ih =>
    unfold settle
    split
    · next h =>
      have hs : s = [] := List.length_eq_zero_iff.mp h.symm
      simpa [hs] using ih
    · simp

/-- Started at the front, the loop leaves the read position at the front. -/
theorem settle_zero_off (chain : Chain) : (settle chain 0).1.off = 0 := by
  induction chain with
  | nil => rfl
  | cons s t ih =>
    unfold settle
    split
    · exact ih
    · rfl

/-! ## Loading -/

theorem load_wf (chain : Chain) : (Memory.load chain).1.wf = true :=
  settle_wf chain 0 (fun _ _ _ => Nat.zero_le _)

theorem load_rest (chain : Chain) : (Memory.load chain).1.rest = chain.flatten := by
  rw [Memory.load, settle_rest]
  cases chain <;> simp

theorem load_chain (chain : Chain) : (Memory.load chain).1.chain = chain.drop (Memory.load chain).2 :=
  settle_chain chain 0

/-! ## Pulling one byte -/

/-- Everything `ChainPull1` can do from the normal form when a byte remains (R162). -/
theorem pull1_of_rest {m : Memory} (hwf : m.wf = true) {b : Byte} {r : List Byte} (h : m.rest = b :: r) :
    ∃ m' k, m.pull1 = some (b, m', k) ∧ m'.rest = r ∧ m'.wf = true ∧ m'.chain = m.chain.drop k ∧
      k ≤ m.chain.length := by
  rcases m with ⟨_ | ⟨s, t⟩, off⟩
  · simp at h
  · have hoff : off < s.length := by simpa [Memory.wf] using hwf
    rw [rest_cons, List.drop_eq_getElem_cons hoff, List.cons_append, List.cons.injEq] at h
    refine ⟨(settle (s :: t) (off + 1)).1, (settle (s :: t) (off + 1)).2,
      by simp [Memory.pull1, List.getElem?_eq_getElem hoff, h.1], ?_, ?_, settle_chain _ _, settle_count_le _ _⟩
    · rw [settle_rest, rest_cons, h.2]
    · exact settle_wf _ _ (fun s' t' e => by cases e; omega)

/-- `ChainPull1` finds nothing exactly when nothing remains (R164). -/
theorem pull1_none_of_rest {m : Memory} (h : m.rest = []) : m.pull1 = none := by
  rcases m with ⟨_ | ⟨s, t⟩, off⟩
  · rfl
  · have : s.length ≤ off := by
      have := (List.append_eq_nil_iff.mp h).1
      simpa using this
    simp [Memory.pull1, List.getElem?_eq_none this]

/-- The same, read backwards: what an answer of `ChainPull1` from the normal form says. -/
theorem pull1_spec {m m' : Memory} (hwf : m.wf = true) {b : Byte} {k : Nat} (h : m.pull1 = some (b, m', k)) :
    m.rest = b :: m'.rest ∧ m'.wf = true ∧ m'.chain = m.chain.drop k ∧ k ≤ m.chain.length := by
  cases hr : m.rest with
  | nil => rw [pull1_none_of_rest hr] at h; cases h
  | cons c r =>
    obtain ⟨m₂, k₂, h₂, hrest, hw, hc, hk⟩ := pull1_of_rest hwf hr
    rw [h] at h₂
    cases h₂
    exact ⟨by rw [hrest], hw, hc, hk⟩

/-- Everything `ChainPull(n)` can do from the normal form when that many bytes remain (R163). -/
theorem pullMany_of_rest (n : Nat) {m : Memory} (hwf : m.wf = true) (h : n ≤ m.rest.length) :
    ∃ m' k, m.pullMany n = some (m.rest.take n, m', k) ∧ m'.rest = m.rest.drop n ∧ m'.wf = true ∧
      m'.chain = m.chain.drop k ∧ k ≤ m.chain.length := by
  induction n generalizing m with
  | zero => exact ⟨m, 0, by simp [Memory.pullMany], by simp, hwf, by simp, Nat.zero_le _⟩
  | succ n ih =>
    cases hr : m.rest with
    | nil => simp [hr] at h
    | cons b r =>
      obtain ⟨m₁, k₁, h₁, hrest, hw, hc, hk⟩ := pull1_of_rest hwf hr
      have hn : n ≤ m₁.rest.length := by rw [hrest]; simpa [hr] using h
      obtain ⟨m₂, k₂, h₂, hrest₂, hw₂, hc₂, hk₂⟩ := ih hw hn
      refine ⟨m₂, k₁ + k₂, by simp [Memory.pullMany, h₁, h₂, hrest], by simp [hrest₂, hrest], hw₂, ?_, ?_⟩
      · rw [hc₂, hc, List.drop_drop]
      · rw [hc, List.length_drop] at hk₂; omega

/-- Every answer of `ChainPull(n)` keeps the normal form. -/
theorem pull_wf {n : Nat} {m m' : Memory} (hwf : m.wf = true) {bs : List Byte} {k : Nat}
    (h : m.pull n = some (bs, m', k)) : m'.wf = true := by
  unfold Memory.pull at h
  split at h
  · cases h
  · next hn =>
    obtain ⟨m₂, k₂, h₂, -, hw, -⟩ := pullMany_of_rest n hwf (by omega)
    rw [h₂] at h
    cases h
    exact hw

/-! ## Probing -/

@[simp] theorem probe_nil : probe [] = .noZero 0 := rfl

theorem probe_zero_cons (r : List Byte) : probe (0x00#8 :: r) = .zero 0 := rfl

theorem probe_cons {b : Byte} (hb : b ≠ 0x00#8) (r : List Byte) :
    probe (b :: r) = (match probe r with | .zero d => .zero (d + 1) | .noZero t => .noZero (t + 1)) := by
  cases hp : probe r <;> simp [probe, hb, hp]

/-- The probe says `NoZero(t)` exactly when no zero lies ahead, and `t` is all that remains (R160). -/
theorem probe_noZero_iff (r : List Byte) (t : Nat) : probe r = .noZero t ↔ t = r.length ∧ 0x00#8 ∉ r := by
  induction r generalizing t with
  | nil => simp [eq_comm]
  | cons b r ih =>
    by_cases hb : b = 0x00#8
    · simp [hb, probe_zero_cons]
    · rw [probe_cons hb]
      cases hp : probe r with
      | zero d =>
        have hn : ¬ (r.length = r.length ∧ 0x00#8 ∉ r) := by rw [← ih r.length, hp]; simp
        simp only [true_and, not_not] at hn
        simp [hn]
      | noZero u =>
        obtain ⟨hu, hz⟩ := (ih u).mp hp
        simp only [Peek.noZero.injEq, List.length_cons, List.mem_cons, not_or]
        exact ⟨fun h => ⟨by omega, Ne.symm hb, hz⟩, fun h => by omega⟩

/-- The probe says `Zero(d)` exactly when `d` non-zero bytes and then a zero lie ahead (R160 (d)). -/
theorem probe_zero_iff (r : List Byte) (d : Nat) :
    probe r = .zero d ↔ ∃ u v, r = u ++ 0x00#8 :: v ∧ u.length = d ∧ 0x00#8 ∉ u := by
  induction r generalizing d with
  | nil => simp
  | cons b r ih =>
    by_cases hb : b = 0x00#8
    · subst hb
      rw [probe_zero_cons]
      constructor
      · rintro h; cases h; exact ⟨[], r, rfl, rfl, by simp⟩
      · rintro ⟨u, v, h, rfl, hu⟩
        cases u with
        | nil => rfl
        | cons c u => simp at h; simp [← h.1] at hu
    · rw [probe_cons hb]
      constructor
      · intro h
        cases hp : probe r with
        | noZero t => rw [hp] at h; cases h
        | zero d' =>
          rw [hp] at h
          cases h
          obtain ⟨u, v, rfl, rfl, hu⟩ := (ih d').mp hp
          exact ⟨b :: u, v, rfl, rfl, by simp [Ne.symm hb, hu]⟩
      · rintro ⟨u, v, h, rfl, hu⟩
        cases u with
        | nil => simp at h; exact absurd h.1 hb
        | cons c u =>
          simp only [List.cons_append, List.cons.injEq] at h
          obtain ⟨rfl, rfl⟩ := h
          rw [(ih u.length).mpr ⟨u, v, rfl, rfl, fun hm => hu (List.mem_cons_of_mem _ hm)⟩]
          simp

/-- How a pull changes what a peek answers, a zero being further on (R165). -/
theorem probe_tail_of_zero {b : Byte} {r : List Byte} {d : Nat} (h : probe (b :: r) = .zero (d + 1)) :
    b ≠ 0x00#8 ∧ probe r = .zero d := by
  by_cases hb : b = 0x00#8
  · subst hb; cases h
  · rw [probe_cons hb] at h
    cases hp : probe r with
    | zero d' => rw [hp] at h; cases h; exact ⟨hb, rfl⟩
    | noZero t => rw [hp] at h; cases h

/-- How a pull changes what a peek answers, no zero being ahead (R165). -/
theorem probe_tail_of_noZero {b : Byte} {r : List Byte} {t : Nat} (h : probe (b :: r) = .noZero (t + 1)) :
    b ≠ 0x00#8 ∧ probe r = .noZero t := by
  by_cases hb : b = 0x00#8
  · subst hb; cases h
  · rw [probe_cons hb] at h
    cases hp : probe r with
    | zero d' => rw [hp] at h; cases h
    | noZero t' => rw [hp] at h; cases h; exact ⟨hb, rfl⟩

/-- `Zero(0)` says the byte at the read position is a zero. -/
theorem probe_zero_zero {r : List Byte} (h : probe r = .zero 0) : ∃ r', r = 0x00#8 :: r' := by
  obtain ⟨u, v, rfl, hu, -⟩ := (probe_zero_iff r 0).mp h
  rw [List.length_eq_zero_iff] at hu
  exact ⟨v, by simp [hu]⟩

end Sys2Proof.Machine
end

