-- ==== Sys2Proof/Laws/Ops.lean ====
section
/-! SUPPORT. One lemma for each shared operation on the state, said once: running an operation on one of the two machines,
taking a fault, pulling a byte through the encoder, fetching. -/

namespace Sys2Proof.Machine

/-! ## Operations on the decoder -/

/-- A decoder operation changes the decoder and the ports only (R76). -/
@[simp] theorem onDecoder_dec (f : Decoder → Decoder × Ports) (s : State) : (onDecoder f s).dec = (f s.dec).1 := rfl
@[simp] theorem onDecoder_enc (f : Decoder → Decoder × Ports) (s : State) : (onDecoder f s).enc = s.enc := rfl
@[simp] theorem onDecoder_ports (f : Decoder → Decoder × Ports) (s : State) : (onDecoder f s).ports = (f s.dec).2 := rfl
@[simp] theorem onDecoder_pending (f : Decoder → Decoder × Ports) (s : State) :
    (onDecoder f s).pending = s.pending := rfl

/-- What paying an owed zero does (R142). -/
theorem payOwedZero_eq (d : Decoder) :
    payOwedZero d = ({ d with pendingZero := false }, if d.pendingZero then some 0x00#8 else none) := by
  rcases d with ⟨st, n, _ | _⟩ <;> rfl

/-! ## Operations on the encoder -/

/-- A dead encoder changes nothing and returns nothing (R214 (c)). -/
theorem onEncoder_dead {s : State} (h : s.enc.dead = true) (f : Encoder → Except Fault (Encoder × Ports)) :
    onEncoder f s = s.answerEnc s.enc Ports.idle := by simp [onEncoder, h]

/-- An operation that completes gives its registers and its signals. -/
theorem onEncoder_ok {s : State} (h : s.enc.dead = false) {f : Encoder → Except Fault (Encoder × Ports)}
    {e : Encoder} {p : Ports} (hf : f s.enc = .ok (e, p)) : onEncoder f s = s.answerEnc e p := by
  simp [onEncoder, h, hf]

/-- An operation that faults leaves nothing but the dead bit and the record of the fault (R214 (a), (b)). -/
theorem onEncoder_error {s : State} (h : s.enc.dead = false) {f : Encoder → Except Fault (Encoder × Ports)}
    {fault : Fault} (hf : f s.enc = .error fault) : onEncoder f s = takeFault fault s := by
  simp [onEncoder, h, hf]

/-- Everything an encoder operation can do to the state: nothing, a fault, or its own effect. -/
theorem onEncoder_cases (f : Encoder → Except Fault (Encoder × Ports)) (s : State) :
    (s.enc.dead = true ∧ onEncoder f s = s.answerEnc s.enc Ports.idle) ∨
    (s.enc.dead = false ∧ ∃ fault, f s.enc = .error fault ∧ onEncoder f s = takeFault fault s) ∨
    (s.enc.dead = false ∧ ∃ e p, f s.enc = .ok (e, p) ∧ onEncoder f s = s.answerEnc e p) := by
  cases hd : s.enc.dead with
  | true => exact .inl ⟨rfl, onEncoder_dead hd f⟩
  | false =>
    cases hf : f s.enc with
    | error fault => exact .inr (.inl ⟨rfl, fault, rfl, onEncoder_error hd hf⟩)
    | ok r => exact .inr (.inr ⟨rfl, r.1, r.2, rfl, onEncoder_ok hd hf⟩)

@[simp] theorem onEncoder_dec (f : Encoder → Except Fault (Encoder × Ports)) (s : State) :
    (onEncoder f s).dec = s.dec := by
  rcases onEncoder_cases f s with ⟨-, h⟩ | ⟨-, _, -, h⟩ | ⟨-, _, _, -, h⟩ <;> rw [h] <;> rfl

@[simp] theorem onEncoder_pending (f : Encoder → Except Fault (Encoder × Ports)) (s : State) :
    (onEncoder f s).pending = s.pending := by
  rcases onEncoder_cases f s with ⟨-, h⟩ | ⟨-, _, -, h⟩ | ⟨-, _, _, -, h⟩ <;> rw [h] <;> rfl

theorem producing_ok {f : Encoder → Except Fault Production} {e : Encoder} {p : Production} (h : f e = .ok p) :
    producing f e = .ok p.response := by simp [producing, h]

theorem producing_error {f : Encoder → Except Fault Production} {e : Encoder} {fault : Fault}
    (h : f e = .error fault) : producing f e = .error fault := by simp [producing, h]

/-! ## Pulling a byte through the encoder -/

/-- Everything `ChainPull1` does on an encoder whose memory is in normal form and holds a byte. -/
theorem encoder_pull1_of_rest {e : Encoder} (hwf : e.mem.wf = true) {b : Byte} {r : List Byte}
    (h : e.mem.rest = b :: r) :
    ∃ m k, e.pull1 = .ok (b, e.withMemory m k, e.releases k) ∧ m.rest = r ∧ m.wf = true ∧
      m.chain = e.mem.chain.drop k ∧ k ≤ e.mem.chain.length := by
  obtain ⟨m, k, hp, hrest, hw, hc, hk⟩ := pull1_of_rest hwf h
  exact ⟨m, k, by simp [Encoder.pull1, hp], hrest, hw, hc, hk⟩

/-- The underrun (R164). -/
theorem encoder_pull1_of_empty {e : Encoder} (h : e.mem.rest = []) : e.pull1 = .error .cursorUnderrun := by
  simp [Encoder.pull1, pull1_none_of_rest h]

/-! ## Fetch and step -/

@[simp] theorem fetch_nil {s : State} (h : s.pending = []) : fetch s = none := by simp [fetch, h]

@[simp] theorem fetch_cons {s : State} {i : Input} {rest : List Input} (h : s.pending = i :: rest) :
    fetch s = some (i, { s with pending := rest }) := by simp [fetch, h]

/-- With nothing pending a step holds the state (R228). -/
theorem step_nil {s : State} (h : s.pending = []) : step s = .next (idleStep s) := by simp [step, fetch_nil h]

/-- A pending hardware reset is taken by the next step (R240). -/
theorem step_hardwareReset {s : State} {a : Agent} {rest : List Input} (h : s.pending = .hardwareReset a :: rest) :
    step s = .next (hardwareReset a { s with pending := rest }) := by simp [step, fetch_cons h]

/-- A pending request that decodes to nothing stops the machine by name. -/
theorem step_undecodable {s : State} {w : Slot} {rest : List Input} {e : DecodeError}
    (h : s.pending = .request w :: rest) (hd : decode w = .error e) : step s = .refused .undecodable := by
  simp [step, fetch_cons h, hd]

end Sys2Proof.Machine
end

