-- ==== Sys2Proof/Laws/PerInstr.lean ====
section
/-! SUPPORT. Facts about the instructions as syntax, one lemma for each constructor. -/

namespace Sys2Proof.Laws.HostOnly

/-- Exactly the six operations of R100 are encoded as requests of the host interface (R101, R102, R166). -/
def Statement (i : Instr) : Prop :=
  (encode i).isHost = true ↔
    (∃ b, i = .feed b) ∨ i = .reset ∨ (∃ c, i = .start c) ∨ (∃ m, i = .pull m) ∨ i = .abort ∨ i = .dispose

theorem term : Statement .term := by simp [Statement, encode, Slot.isHost]
theorem zero : Statement .zero := by simp [Statement, encode, Slot.isHost]
theorem runz (n : Nat) : Statement (.runz n) := by simp [Statement, encode, Slot.isHost]
theorem runf : Statement .runf := by simp [Statement, encode, Slot.isHost]
theorem lit (d : Byte) : Statement (.lit d) := by simp [Statement, encode, Slot.isHost]
theorem illz : Statement .illz := by simp [Statement, encode, Slot.isHost]
theorem feed (b : Byte) : Statement (.feed b) := by simp [Statement, encode, Slot.isHost]
theorem reset : Statement .reset := by simp [Statement, encode, Slot.isHost]
theorem start (chain : Chain) : Statement (.start chain) := by simp [Statement, encode, Slot.isHost]
theorem pull (max : Nat) : Statement (.pull max) := by simp [Statement, encode, Slot.isHost]
theorem abort : Statement .abort := by simp [Statement, encode, Slot.isHost]
theorem dispose : Statement .dispose := by simp [Statement, encode, Slot.isHost]
theorem peek : Statement .peek := by simp [Statement, encode, Slot.isHost]
theorem cpull1 : Statement .cpull1 := by simp [Statement, encode, Slot.isHost]
theorem cpull (n : Nat) : Statement (.cpull n) := by simp [Statement, encode, Slot.isHost]
theorem zfb : Statement .zfb := by simp [Statement, encode, Slot.isHost]
theorem zc : Statement .zc := by simp [Statement, encode, Slot.isHost]
theorem zd : Statement .zd := by simp [Statement, encode, Slot.isHost]
theorem nzc : Statement .nzc := by simp [Statement, encode, Slot.isHost]
theorem nzd : Statement .nzd := by simp [Statement, encode, Slot.isHost]
theorem fz : Statement .fz := by simp [Statement, encode, Slot.isHost]
theorem fin : Statement .fin := by simp [Statement, encode, Slot.isHost]

end Sys2Proof.Laws.HostOnly
end

