-- ==== Sys2Proof/Laws/Reference.lean ====
section
/-! SUPPORT. The reference transform unfolded by the three cases of R121 and the cases of R123, free of fuel. -/

namespace Sys2Proof.Machine

theorem zeroFreeLength_le (x : List Byte) : zeroFreeLength x ≤ x.length :=
  (List.takeWhile_prefix _).length_le

@[simp] theorem zeroFreeLength_nil : zeroFreeLength [] = 0 := rfl
@[simp] theorem zeroFreeLength_zero (x : List Byte) : zeroFreeLength (0x00#8 :: x) = 0 := rfl

theorem zeroFreeLength_cons {b : Byte} (h : b ≠ 0x00#8) (x : List Byte) :
    zeroFreeLength (b :: x) = zeroFreeLength x + 1 := by simp [zeroFreeLength, h]

/-- A zero-free stretch in front adds its length. -/
theorem zeroFreeLength_append {u : List Byte} (h : 0x00#8 ∉ u) (x : List Byte) :
    zeroFreeLength (u ++ x) = u.length + zeroFreeLength x := by
  induction u with
  | nil => simp
  | cons b u ih =>
    simp only [List.mem_cons, not_or] at h
    rw [List.cons_append, zeroFreeLength_cons (Ne.symm h.1), ih h.2, List.length_cons]
    omega

/-- Enough fuel is enough: the body does not depend on it. -/
theorem bodyOn_fuel {a b : Nat} {x : List Byte} (ha : x.length < a) (hb : x.length < b) : bodyOn a x = bodyOn b x := by
  induction a generalizing b x with
  | zero => omega
  | succ a ih =>
    obtain ⟨b, rfl⟩ : ∃ k, b = k + 1 := ⟨b - 1, by omega⟩
    have hz := zeroFreeLength_le x
    unfold bodyOn
    split
    · have : (x.drop 254).length < x.length := by rw [List.length_drop]; omega
      rw [ih (b := b) (by omega) (by omega)]
    · split
      · rfl
      · have : (x.drop (zeroFreeLength x + 1)).length < x.length := by rw [List.length_drop]; omega
        rw [ih (b := b) (by omega) (by omega)]

/-- The first case of R121: a full chunk. -/
theorem body_full {x : List Byte} (h : 254 ≤ zeroFreeLength x) :
    body x = 0xFF#8 :: (x.take 254 ++ body (x.drop 254)) := by
  have := zeroFreeLength_le x
  rw [body, bodyOn, if_pos h, bodyOn_fuel (b := (x.drop 254).length + 1) (by rw [List.length_drop]; omega) (by omega)]
  rfl

/-- The second case of R121: the last chunk. -/
theorem body_last {x : List Byte} (h : zeroFreeLength x < 254) (he : zeroFreeLength x = x.length) :
    body x = BitVec.ofNat 8 (x.length + 1) :: x := by
  rw [body, bodyOn, if_neg (by omega), if_pos he, he]

/-- The third case of R121: a chunk ended by a zero, which is dropped. -/
theorem body_zero {x : List Byte} (h : zeroFreeLength x < 254) (he : zeroFreeLength x ≠ x.length) :
    body x = BitVec.ofNat 8 (zeroFreeLength x + 1) ::
      (x.take (zeroFreeLength x) ++ body (x.drop (zeroFreeLength x + 1))) := by
  have := zeroFreeLength_le x
  rw [body, bodyOn, if_neg (by omega), if_neg he,
    bodyOn_fuel (b := (x.drop (zeroFreeLength x + 1)).length + 1) (by rw [List.length_drop]; omega) (by omega)]
  rfl

@[simp] theorem prepend_nil (r : DecOutcome) : r.prepend [] = r := by cases r <;> rfl

/-- Prepending twice is prepending the two stretches in order. -/
theorem prepend_append (a b : List Byte) (r : DecOutcome) : r.prepend (a ++ b) = (r.prepend b).prepend a := by
  cases r <;> simp [DecOutcome.prepend]

/-- Enough fuel is enough: the outcome does not depend on it. -/
theorem decOn_fuel {a b : Nat} {f : List Byte} (owed : Bool) (ha : f.length ≤ a) (hb : f.length ≤ b) :
    decOn a owed f = decOn b owed f := by
  induction a generalizing b f owed with
  | zero =>
    obtain rfl : f = [] := List.length_eq_zero_iff.mp (by omega)
    cases b <;> rfl
  | succ a ih =>
    cases f with
    | nil => cases b <;> rfl
    | cons c t =>
      rw [List.length_cons] at ha hb
      obtain ⟨b, rfl⟩ : ∃ k, b = k + 1 := ⟨b - 1, by omega⟩
      simp only [decOn]
      rw [ih (b := b) (f := t.drop (c.toNat - 1)) (owed := decide (c ≠ 0xFF#8))
        (by rw [List.length_drop]; omega) (by rw [List.length_drop]; omega)]

end Sys2Proof.Machine
end

