-- ==== Sys2Proof/Laws/Session.lean ====
section
/-! SUPPORT. How a session unfolds: operation by operation, and cut in two. -/

namespace Sys2Proof.Machine

@[simp] theorem issue_nil (s : State) : issue [] s = some ([], s) := rfl

/-- A session whose first operation completes. -/
theorem issue_cons {i : Instr} {s s' : State} (h : exec i s = .next s') (rest : List Instr) :
    issue (i :: rest) s = (issue rest s').map (fun r => (s'.ports :: r.1, r.2)) := by
  simp only [issue, h]
  cases issue rest s' <;> rfl

/-- A session is its first part and then its second, from the state the first left (R75). -/
theorem issue_append (a b : List Instr) (s : State) :
    issue (a ++ b) s = (issue a s).bind (fun r => (issue b r.2).map (fun q => (r.1 ++ q.1, q.2))) := by
  induction a generalizing s with
  | nil => cases h : issue b s <;> simp [h]
  | cons i a ih =>
    cases he : exec i s with
    | next s' =>
      rw [List.cons_append, issue_cons he, issue_cons he, ih]
      cases issue a s' with
      | none => rfl
      | some r => cases h : issue b r.2 <;> simp [h]
    | fault f => simp [issue, he]
    | refused r => simp [issue, he]

theorem issue_append_some {a b : List Instr} {s t u : State} {ps qs : List Ports} (ha : issue a s = some (ps, t))
    (hb : issue b t = some (qs, u)) : issue (a ++ b) s = some (ps ++ qs, u) := by
  simp [issue_append, ha, hb]

@[simp] theorem outputsOf_nil : outputsOf [] = [] := rfl
@[simp] theorem outputsOf_cons (p : Ports) (ps : List Ports) :
    outputsOf (p :: ps) = p.decOut.toList ++ outputsOf ps := rfl
@[simp] theorem outputsOf_append (ps qs : List Ports) : outputsOf (ps ++ qs) = outputsOf ps ++ outputsOf qs := by
  simp [outputsOf]
@[simp] theorem resultsOf_nil : resultsOf [] = [] := rfl
@[simp] theorem resultsOf_cons (p : Ports) (ps : List Ports) : resultsOf (p :: ps) = p.decRes :: resultsOf ps := rfl
@[simp] theorem resultsOf_append (ps qs : List Ports) : resultsOf (ps ++ qs) = resultsOf ps ++ resultsOf qs := by
  simp [resultsOf]
@[simp] theorem frameOf_nil : frameOf [] = [] := rfl
@[simp] theorem frameOf_cons (p : Ports) (ps : List Ports) : frameOf (p :: ps) = p.encBytes.getD [] ++ frameOf ps := rfl
@[simp] theorem frameOf_append (ps qs : List Ports) : frameOf (ps ++ qs) = frameOf ps ++ frameOf qs := by
  simp [frameOf]
@[simp] theorem releasesOf_nil : releasesOf [] = [] := rfl
@[simp] theorem releasesOf_cons (p : Ports) (ps : List Ports) : releasesOf (p :: ps) = p.rel ++ releasesOf ps := rfl
@[simp] theorem releasesOf_append (ps qs : List Ports) : releasesOf (ps ++ qs) = releasesOf ps ++ releasesOf qs := by
  simp [releasesOf]

end Sys2Proof.Machine
end

