-- ==== Sys2Proof/Laws/Steps.lean ====
section
/-! SUPPORT. The encoder's steps and the loop of PULL, said once: which step runs in which state, what each answers, and how
the loop unfolds. -/

namespace Sys2Proof.Machine

/-! ## Chunking -/

theorem chunkLength_short {d : Nat} (h : d < 254) : chunkLength d = d := by simp [chunkLength, Config.maxRun, h]

theorem chunkLength_full {d : Nat} (h : 254 ≤ d) : chunkLength d = 254 := by
  simp [chunkLength, Config.maxRun, Nat.not_lt.mpr h]

theorem chunkCode_short {d : Nat} (h : d < 254) : chunkCode d = BitVec.ofNat 8 (d + 1) := by
  simp [chunkCode, codeByte, Config.maxRun, h]

theorem chunkCode_full {d : Nat} (h : 254 ≤ d) : chunkCode d = 0xFF#8 := by
  simp [chunkCode, Config.maxRun, Nat.not_lt.mpr h]

theorem fullFlag_short {t : Nat} (h : t < 254) : fullFlag t = false := by
  simp [fullFlag, Config.maxRun]; omega

theorem fullFlag_full {t : Nat} (h : 254 ≤ t) : fullFlag t = true := by simp [fullFlag, Config.maxRun, h]

theorem postFor_short {d : Nat} (h : d ≠ 254) : postFor d = .zc := by simp [postFor, Config.maxRun, h]

theorem postFor_full : postFor 254 = .zfb := by simp [postFor, Config.maxRun]

/-- The length of the next chunk: no longer than the cap or the distance, and not empty off a zero. -/
theorem chunkLength_bounds {d : Nat} (h : d ≠ 0) : 1 ≤ chunkLength d ∧ chunkLength d ≤ 254 ∧ chunkLength d ≤ d := by
  rcases Nat.lt_or_ge d 254 with hd | hd
  · rw [chunkLength_short hd]; omega
  · rw [chunkLength_full hd]; omega

/-- A code byte is never `0x00` (R125). -/
theorem chunkCode_ne_zero (d : Nat) : chunkCode d ≠ 0x00#8 := by
  rcases Nat.lt_or_ge d 254 with hd | hd
  · rw [chunkCode_short hd]
    intro h
    have := congrArg BitVec.toNat h
    simp only [BitVec.toNat_ofNat] at this
    omega
  · rw [chunkCode_full hd]; decide

@[simp] theorem nzcode_zero (rel : List Nat) (e : Encoder) :
    nzcode 0 rel e = { enc := e.goto .fz, bytes := [0x01#8], rel := rel } := rfl

theorem nzcode_pos {t : Nat} (h : t ≠ 0) (rel : List Nat) (e : Encoder) :
    nzcode t rel e =
      { enc := e.goto (.nzd t (chunkLength t) (fullFlag t)), bytes := [chunkCode t], rel := rel } := by
  simp [nzcode, h]

/-! ## STEP: the tag selects the step (R177) -/

@[simp] theorem encoderStep_zfb {e : Encoder} (h : e.state = .zfb) : encoderStep e = stepZfb e := by
  simp [encoderStep, h]
@[simp] theorem encoderStep_zc {e : Encoder} {n : Nat} (h : e.state = .zc n) : encoderStep e = stepZc n e := by
  simp [encoderStep, h]
@[simp] theorem encoderStep_zd {e : Encoder} {n : Nat} {d : BitVec Config.encDlBits} {p : Post}
    (h : e.state = .zd d p n) :
    encoderStep e = stepZd d p n e := by simp [encoderStep, h]
@[simp] theorem encoderStep_nzc {e : Encoder} {t : Nat} (h : e.state = .nzc t) : encoderStep e = stepNzc t e := by
  simp [encoderStep, h]
@[simp] theorem encoderStep_nzd {e : Encoder} {t : Nat} {d : BitVec Config.encDlBits} {f : Bool}
    (h : e.state = .nzd t d f) :
    encoderStep e = stepNzd t d f e := by simp [encoderStep, h]
@[simp] theorem encoderStep_fz {e : Encoder} (h : e.state = .fz) : encoderStep e = stepFz e := by
  simp [encoderStep, h]
@[simp] theorem encoderStep_fin {e : Encoder} (h : e.state = .fin) : encoderStep e = stepFin e := by
  simp [encoderStep, h]

/-! ## What the steps that read memory answer -/

/-- Step `ZC` off a zero chunks the known distance (R179, R180). -/
theorem stepZc_pos {n : Nat} (h : n ≠ 0) (e : Encoder) : stepZc n e = .ok (chunkz n [] e) := by simp [stepZc, h]

/-- Step `ZC` on a zero consumes it and probes the rest (R179). -/
theorem stepZc_zero {e e' : Encoder} {b : Byte} {rel : List Nat} (h : e.pull1 = .ok (b, e', rel)) :
    stepZc 0 e =
      .ok (match e'.mem.peek with
        | .noZero t => nzcode t rel e'
        | .zero 0 => { enc := e'.goto (.zc 0), bytes := [0x01#8], rel := rel }
        | .zero (d + 1) => chunkz (d + 1) rel e') := by
  simp only [stepZc, if_true, h]
  rcases e'.mem.peek with (_ | _) | _ <;> rfl

/-- Step `ZD` with a byte to pull (R182). -/
theorem stepZd_ok {e e' : Encoder} {b : Byte} {rel : List Nat} (h : e.pull1 = .ok (b, e', rel))
    (d : BitVec Config.encDlBits) (p : Post) (n : Nat) :
    stepZd d p n e =
      .ok { enc := e'.goto (if d - 1 = 0 then p.target (n - 1) else .zd (d - 1) p (n - 1)), bytes := [b],
            rel := rel } := by simp [stepZd, h]

/-- Step `NZD` with a byte to pull (R184). -/
theorem stepNzd_ok {e e' : Encoder} {b : Byte} {rel : List Nat} (h : e.pull1 = .ok (b, e', rel))
    (t : Nat) (d : BitVec Config.encDlBits) (f : Bool) :
    stepNzd t d f e =
      .ok { enc := e'.goto (if d - 1 = 0 then (if f then .nzc (t - 1) else .fz) else .nzd (t - 1) (d - 1) f),
            bytes := [b], rel := rel } := by simp [stepNzd, h]

/-- The steps leave the lifecycle register and the dead bit alone (R31, R47). -/
theorem encoderStep_keeps {e : Encoder} {p : Production} (h : encoderStep e = .ok p) :
    p.enc.life = e.life ∧ p.enc.dead = e.dead := by
  have hpull : ∀ {b e' rel}, e.pull1 = .ok (b, e', rel) → e'.life = e.life ∧ e'.dead = e.dead := by
    intro b e' rel hp
    unfold Encoder.pull1 at hp
    split at hp
    · cases hp
    · cases hp; exact ⟨rfl, rfl⟩
  cases hs : e.state with
  | zfb => rw [encoderStep_zfb hs] at h; cases h; exact ⟨rfl, rfl⟩
  | nzc t =>
    rw [encoderStep_nzc hs] at h
    cases h
    unfold nzcode
    split <;> exact ⟨rfl, rfl⟩
  | fz => rw [encoderStep_fz hs] at h; cases h; exact ⟨rfl, rfl⟩
  | fin => rw [encoderStep_fin hs] at h; cases h; exact ⟨rfl, rfl⟩
  | zc n =>
    rw [encoderStep_zc hs] at h
    rcases Nat.eq_zero_or_pos n with rfl | hn
    · cases hp : e.pull1 with
      | error f => simp [stepZc, hp] at h
      | ok r =>
        obtain ⟨b, e', rel⟩ := r
        rw [stepZc_zero hp] at h
        obtain ⟨hl, hd⟩ := hpull hp
        rw [← hl, ← hd]
        cases h
        rcases e'.mem.peek with (_ | _) | t
        · exact ⟨rfl, rfl⟩
        · exact ⟨rfl, rfl⟩
        · simp only [nzcode]; split <;> exact ⟨rfl, rfl⟩
    · rw [stepZc_pos (by omega)] at h; cases h; exact ⟨rfl, rfl⟩
  | zd d p n =>
    rw [encoderStep_zd hs] at h
    cases hp : e.pull1 with
    | error f => simp [stepZd, hp] at h
    | ok r => obtain ⟨b, e', rel⟩ := r; rw [stepZd_ok hp] at h; cases h; exact ⟨(hpull hp).1, (hpull hp).2⟩
  | nzd t d f =>
    rw [encoderStep_nzd hs] at h
    cases hp : e.pull1 with
    | error f => simp [stepNzd, hp] at h
    | ok r => obtain ⟨b, e', rel⟩ := r; rw [stepNzd_ok hp] at h; cases h; exact ⟨(hpull hp).1, (hpull hp).2⟩

/-! ## The loop of PULL (R176) -/

@[simp] theorem pullLoop_zero (e : Encoder) : pullLoop 0 e = .ok { enc := e, bytes := [], rel := [] } := rfl

/-- In `FIN` the loop runs no step (R186). -/
theorem pullLoop_fin {e : Encoder} (h : e.state = .fin) (n : Nat) :
    pullLoop n e = .ok { enc := e, bytes := [], rel := [] } := by cases n <;> simp [pullLoop, h]

/-- Out of `FIN` the loop is one step and the loop again. -/
theorem pullLoop_succ {e : Encoder} (h : e.state ≠ .fin) {p : Production} (hp : encoderStep e = .ok p) (n : Nat) :
    pullLoop (n + 1) e =
      (match pullLoop n p.enc with
        | .error fault => .error fault
        | .ok q => .ok { enc := q.enc, bytes := p.bytes ++ q.bytes, rel := p.rel ++ q.rel }) := by
  cases hq : pullLoop n p.enc <;> simp [pullLoop, h, hp, hq]

/-- A step that faults ends the loop with that fault. -/
theorem pullLoop_succ_error {e : Encoder} (h : e.state ≠ .fin) {fault : Fault} (hp : encoderStep e = .error fault)
    (n : Nat) : pullLoop (n + 1) e = .error fault := by simp only [pullLoop, h, if_false, hp]

end Sys2Proof.Machine
end

