-- ==== Sys2Proof/Tests/Slice0.lean ====
section
/-! SUPPORT. Tests against the words and vectors of the spec, and for each statement with hypotheses a witness that
meets them all. -/

namespace Sys2Proof.Tests

open Sys2Proof.Machine Sys2Proof.Safety

/-! ## Helpers -/

/-- A decoder state with the rest of the machine as after reset. -/
def decoderIn (st : DecState) (remaining : BitVec Config.decRemBits) (pz : Bool) : State :=
  { State.reset with dec := { state := st, remaining := remaining, pendingZero := pz } }

/-- An encoder state with the rest of the machine as after reset. -/
def encoderIn (life : Life) (st : EncState) (chain : Chain) (off : Nat) : State :=
  { State.reset with enc := { life := life, state := st, mem := { chain := chain, off := off }, released := 0,
                              dead := false } }

/-- The machine with a dead encoder. -/
def deadEncoder : State := { State.reset with enc := { Encoder.reset with dead := true } }

/-- One column of a decoder trace: the result, the output byte, the registers after. -/
def fed (o : Host.Outcome State Fault Refusal) : Option (Option FeedResult × Option Byte × Decoder) :=
  match o with
  | .next t => some (t.ports.decRes, t.ports.decOut, t.dec)
  | _ => none

/-- One column of an encoder trace: the bytes emitted, the releases, the state and the chain after. -/
def made (o : Host.Outcome State Fault Refusal) : Option (Option (List Byte) × List Nat × EncState × Memory) :=
  match o with
  | .next t => some (t.ports.encBytes, t.ports.rel, t.enc.state, t.enc.mem)
  | _ => none

/-- One column of a cursor trace: the bytes returned, the releases, the chain after. -/
def pulled (o : Host.Outcome State Fault Refusal) : Option (Option (List Byte) × List Nat × Memory) :=
  match o with
  | .next t => some (t.ports.pulled, t.ports.rel, t.enc.mem)
  | _ => none

/-! ## WellFormed: a term refused by each check -/

theorem test_wf_runz_zero : (Instr.runz 0).wellFormed = false := by decide
theorem test_wf_runz_too_long : (Instr.runz 254).wellFormed = false := by decide
theorem test_wf_lit_zero : (Instr.lit 0x00#8).wellFormed = false := by decide
theorem test_wf_pull_too_wide : (Instr.pull (2 ^ 32)).wellFormed = false := by decide

/-- The bounds of R8 on a chain, at parameter values that bound it: 4 bytes at `LEN_BITS` 2, 3 segments and a segment
of 3 bytes at `SEG_MAX` 2. -/
theorem test_wf_chain_bounds :
    chainFits (some 2) none [[0x11#8, 0x22#8], [0x33#8, 0x44#8]] = false ∧
    chainFits (some 2) none [[0x11#8, 0x22#8], [0x33#8]] = true ∧
    chainFits none (some 2) [[], [], []] = false ∧ chainFits none (some 2) [[0x11#8, 0x22#8, 0x33#8]] = false ∧
    chainFits none (some 2) [[0x11#8, 0x22#8], []] = true := by decide

/-! ## Decoding: words from R94, R95, R101, R102, R105, R108, one for each constructor -/

theorem test_decode_code_position :
    decode (.wireCode 0b00000000#8) = .ok .term ∧ decode (.wireCode 0b00000001#8) = .ok .zero ∧
    decode (.wireCode 0b00000010#8) = .ok (.runz 1) ∧ decode (.wireCode 0b11111110#8) = .ok (.runz 253) ∧
    decode (.wireCode 0b11111111#8) = .ok .runf := by decide

theorem test_decode_data_position :
    decode (.wireData 0b00000000#8) = .ok .illz ∧ decode (.wireData 0b00000001#8) = .ok (.lit 0x01#8) ∧
    decode (.wireData 0b11111111#8) = .ok (.lit 0xFF#8) := by decide

theorem test_decode_host_operations :
    decode (.decOp 0b0#1 0xA5#8) = .ok (.feed 0xA5#8) ∧ decode (.decOp 0b1#1 0xA5#8) = .ok .reset ∧
    decode (.encOp 0b00#2 [[0x11#8]] 0) = .ok (.start [[0x11#8]]) ∧
    decode (.encOp 0b01#2 [] 0xFFFFFFFF#32) = .ok (.pull 4294967295) ∧
    decode (.encOp 0b10#2 [] 0) = .ok .abort ∧ decode (.encOp 0b11#2 [] 0) = .ok .dispose := by decide

theorem test_decode_cursor :
    decode (.cursor .peek 0) = .ok .peek ∧ decode (.cursor .cpull1 0) = .ok .cpull1 ∧
    decode (.cursor .cpull 3) = .ok (.cpull 3) := by decide

theorem test_decode_steps :
    decode (.encStep 0b000#3) = .ok .zfb ∧ decode (.encStep 0b001#3) = .ok .zc ∧
    decode (.encStep 0b010#3) = .ok .zd ∧ decode (.encStep 0b011#3) = .ok .nzc ∧
    decode (.encStep 0b100#3) = .ok .nzd ∧ decode (.encStep 0b101#3) = .ok .fz ∧
    decode (.encStep 0b110#3) = .ok .fin ∧ decode (.encStep 0b111#3) = .error .noSuchStep := by decide

/-- The group notation of T14 in section 3.2 of the vectors: `02 11 | 03 22 33 | 01 | 02 44 | 00`. -/
theorem test_decode_frame_t14 :
    decodeFrame [0x02#8, 0x11#8, 0x03#8, 0x22#8, 0x33#8, 0x01#8, 0x02#8, 0x44#8, 0x00#8] =
      [.runz 1, .lit 0x11#8, .runz 2, .lit 0x22#8, .lit 0x33#8, .zero, .runz 1, .lit 0x44#8, .term] := by decide

/-- Words in the numbering of the opcode table: a byte alone, a select code, a byte and its format. -/
theorem test_decode_table_words :
    decodeTableWord 8 0xFF = some .runf ∧ decodeTableWord 8 0x7F = some (.runz 126) ∧
    decodeTableWord 1 1 = some .reset ∧ decodeTableWord 2 3 = some .dispose ∧ decodeTableWord 3 5 = some .fz ∧
    decodeTableWord 16 0 = some .term ∧ decodeTableWord 16 0x0100 = some .illz ∧
    decodeTableWord 24 0x420200 = some (.feed 0x42#8) ∧ decodeTableWord 3 7 = none := by decide

theorem test_table_word_runs_next :
    fed (step (State.reset.withFetchWord 8 0xFF)) =
      some (some .consumed, none, { state := .data, remaining := 254, pendingZero := false }) := by decide

/-- Placing a step leaves the dead bit, whether its tag was selected or not: it is refused (R214 (c), (d)). -/
theorem test_table_step_on_dead_encoder :
    (deadEncoder.withFetchWord 3 6).enc = deadEncoder.enc ∧ (deadEncoder.withFetchWord 3 5).enc.dead = true ∧
    made (step (deadEncoder.withFetchWord 3 5)) = some (none, [], .fz, { chain := [], off := 0 }) := by decide

/-! ## The reset state (R42, R43) -/

theorem test_reset_tags :
    State.reset.dec.state.tag = 0b00#2 ∧ State.reset.enc.life.tag = 0b00#2 ∧
    State.reset.enc.state.tag = 0b110#3 := by decide

/-! ## The decoder: the traces of section 2 of the vectors -/

/-- D1, row 5. -/
theorem test_term : fed (exec .term (decoderIn .code 0 true)) =
    some (some .frameComplete, none, { state := .finished, remaining := 0, pendingZero := false }) := by decide

/-- D3, row 3: the owed zero is paid and owed again. -/
theorem test_zero : fed (exec .zero (decoderIn .code 0 true)) =
    some (some .consumed, some 0x00#8, { state := .code, remaining := 0, pendingZero := true }) := by decide

/-- D1, row 3. -/
theorem test_runz : fed (exec (.runz 1) (decoderIn .code 0 true)) =
    some (some .consumed, some 0x00#8, { state := .data, remaining := 1, pendingZero := true }) := by decide

/-- The example of R145. -/
theorem test_runf : fed (exec .runf State.reset) =
    some (some .consumed, none, { state := .data, remaining := 254, pendingZero := false }) := by decide

/-- D6, row 4: the last byte of the run. -/
theorem test_lit_last : fed (exec (.lit 0x33#8) (decoderIn .data 1 true)) =
    some (some .consumed, some 0x33#8, { state := .code, remaining := 0, pendingZero := true }) := by decide

/-- D6, row 3. -/
theorem test_lit : fed (exec (.lit 0x22#8) (decoderIn .data 2 true)) =
    some (some .consumed, some 0x22#8, { state := .data, remaining := 1, pendingZero := true }) := by decide

/-- D7, row 3. -/
theorem test_illz : fed (exec .illz (decoderIn .data 1 true)) =
    some (some .unexpectedZero, none, { state := .finished, remaining := 1, pendingZero := true }) := by decide

/-- D7, row 5: `0x00` in `Finished` is no terminator (R216 (a)). -/
theorem test_feed_finished : fed (exec (.feed 0x00#8) (decoderIn .finished 1 true)) =
    some (some .protocolError, none, { state := .finished, remaining := 1, pendingZero := true }) := by decide

/-- D7, row 1. -/
theorem test_feed_code : fed (exec (.feed 0x03#8) State.reset) =
    some (some .consumed, none, { state := .data, remaining := 2, pendingZero := true }) := by decide

/-- The example of R149. -/
theorem test_reset : fed (exec .reset (decoderIn .finished 1 true)) =
    some (none, none, { state := .code, remaining := 0, pendingZero := false }) := by decide

/-! ## The cursor: K1 to K3 of section 3.1 -/

/-- The example of R160. -/
theorem test_peek :
    (encoderIn .owned .fin [[0x11#8, 0x22#8], [], [0x33#8, 0x00#8, 0x44#8]] 1).enc.mem.peek = .zero 2 ∧
    (encoderIn .owned .fin [[0x11#8, 0x22#8], [], [0x33#8, 0x55#8, 0x44#8]] 1).enc.mem.peek = .noZero 4 := by decide

/-- K1, row 2: the drained segment and the empty one behind it go back. -/
theorem test_cpull1 : pulled (exec .cpull1 (encoderIn .owned .fin [[0x11#8, 0x22#8], [], [0x33#8, 0x00#8, 0x44#8]] 1)) =
    some (some [0x22#8], [0, 1], { chain := [[0x33#8, 0x00#8, 0x44#8]], off := 0 }) := by decide

/-- K1, row 6. -/
theorem test_cpull1_underrun : exec .cpull1 (encoderIn .owned .fin [] 0) =
    .next { encoderIn .owned .fin [] 0 with
      enc := { (encoderIn .owned .fin [] 0).enc with dead := true },
      ports := { Ports.idle with fault := some .cursorUnderrun } } := rfl

/-- K3. -/
theorem test_cpull : pulled (exec (.cpull 3) (encoderIn .owned .fin [[0x11#8, 0x22#8], [0x33#8]] 0)) =
    some (some [0x11#8, 0x22#8, 0x33#8], [0, 1], { chain := [], off := 0 }) := by decide

/-- K3: nothing is consumed when too much is asked for. -/
theorem test_cpull_underrun : pulled (exec (.cpull 4) (encoderIn .owned .fin [[0x11#8, 0x22#8], [0x33#8]] 0)) =
    some (none, [], { chain := [[0x11#8, 0x22#8], [0x33#8]], off := 0 }) := by decide

/-! ## The encoder: the traces of section 3.3 and the vectors of section 4.1 -/

/-- E7: the empty head goes back in START. -/
theorem test_start : made (exec (.start [[], [0x00#8, 0x11#8], []]) State.reset) =
    some (none, [0], .zfb, { chain := [[0x00#8, 0x11#8], []], off := 0 }) := by decide

/-- L4. -/
theorem test_start_while_owned : exec (.start [[0x02#8]]) (encoderIn .owned (.nzc 1) [[0x01#8]] 0) =
    .next { encoderIn .owned (.nzc 1) [[0x01#8]] 0 with
      enc := { (encoderIn .owned (.nzc 1) [[0x01#8]] 0).enc with dead := true },
      ports := { Ports.idle with fault := some .startWhileOwned } } := rfl

/-- The example of R176. -/
theorem test_pull : made (exec (.pull 3) (encoderIn .owned (.zc 1) [[0x11#8, 0x00#8], [0x22#8]] 0)) =
    some (some [0x02#8, 0x11#8, 0x02#8], [0], .nzd 1 1 false, { chain := [[0x22#8]], off := 0 }) := by decide

/-- L1. -/
theorem test_pull_not_started : exec (.pull 1) State.reset =
    .next { State.reset with
      enc := { State.reset.enc with dead := true }, ports := { Ports.idle with fault := some .notStarted } } := rfl

/-- L9. -/
theorem test_abort : made (exec .abort (encoderIn .owned (.nzc 3) [[0x01#8, 0x02#8, 0x03#8]] 0)) =
    some (none, [], .fin, { chain := [[0x01#8, 0x02#8, 0x03#8]], off := 0 }) := by decide

/-- The example of R188. -/
theorem test_dispose : made (exec .dispose (encoderIn .owned .fin [[0x22#8, 0x33#8], [0x44#8]] 1)) =
    some (none, [0, 1], .fin, { chain := [], off := 0 }) := by decide

/-- E3, step 1. -/
theorem test_zfb : made (exec .zfb (encoderIn .owned .zfb [[0x00#8]] 0)) =
    some (some [0x01#8], [], .zc 0, { chain := [[0x00#8]], off := 0 }) := by decide

/-- E5, step 2: two adjacent zeros. -/
theorem test_zc_adjacent : made (exec .zc (encoderIn .owned (.zc 0) [[0x00#8, 0x00#8]] 0)) =
    some (some [0x01#8], [], .zc 0, { chain := [[0x00#8, 0x00#8]], off := 1 }) := by decide

/-- E13, step 256 and E11, step 1: no zero consumed, the distance chunked. -/
theorem test_zc_distance :
    made (exec .zc (encoderIn .owned (.zc 1) [[0xFF#8, 0x00#8]] 0)) =
      some (some [0x02#8], [], .zd 1 .zc 1, { chain := [[0xFF#8, 0x00#8]], off := 0 }) ∧
    made (exec .zc (encoderIn .owned (.zc 254) [[0x01#8]] 0)) =
      some (some [0xFF#8], [], .zd 254 .zfb 254, { chain := [[0x01#8]], off := 0 }) := by decide

/-- E11, step 255: a full chunk that ends on the zero. -/
theorem test_zd_full : made (exec .zd (encoderIn .owned (.zd 1 .zfb 1) [[0xFE#8, 0x00#8]] 0)) =
    some (some [0xFE#8], [], .zfb, { chain := [[0xFE#8, 0x00#8]], off := 1 }) := by decide

/-- E13, step 255: a full chunk of a longer run. -/
theorem test_zd_longer : made (exec .zd (encoderIn .owned (.zd 1 .zc 2) [[0xFE#8, 0xFF#8, 0x00#8]] 0)) =
    some (some [0xFE#8], [], .zc 1, { chain := [[0xFE#8, 0xFF#8, 0x00#8]], off := 1 }) := by decide

/-- E9, step 1 and E8, step 1: the two sides of the chunk cap. -/
theorem test_nzc :
    made (exec .nzc (encoderIn .owned (.nzc 253) [[0x01#8]] 0)) =
      some (some [0xFE#8], [], .nzd 253 253 false, { chain := [[0x01#8]], off := 0 }) ∧
    made (exec .nzc (encoderIn .owned (.nzc 254) [[0x01#8]] 0)) =
      some (some [0xFF#8], [], .nzd 254 254 true, { chain := [[0x01#8]], off := 0 }) := by decide

/-- E8, step 255: one more code after a full last chunk (conflict C1). -/
theorem test_nzd_full : made (exec .nzd (encoderIn .owned (.nzd 1 1 true) [[0xFE#8]] 0)) =
    some (some [0xFE#8], [0], .nzc 0, { chain := [], off := 0 }) := by decide

/-- E9, step 254. -/
theorem test_nzd_short : made (exec .nzd (encoderIn .owned (.nzd 1 1 false) [[0xFD#8]] 0)) =
    some (some [0xFD#8], [0], .fz, { chain := [], off := 0 }) := by decide

/-- E2, step 2. -/
theorem test_fz : made (exec .fz (encoderIn .owned .fz [] 0)) =
    some (some [0x00#8], [], .fin, { chain := [], off := 0 }) := by decide

/-- R186. -/
theorem test_fin : made (exec .fin (encoderIn .owned .fin [] 0)) =
    some (some [], [], .fin, { chain := [], off := 0 }) := by decide

/-- S2 and T8, and the outcomes of R123. -/
theorem test_reference :
    refEnc [0x00#8] = [0x01#8, 0x01#8, 0x00#8] ∧
    refEnc [0x11#8, 0x00#8, 0x22#8] = [0x02#8, 0x11#8, 0x02#8, 0x22#8, 0x00#8] ∧
    refDec [0x01#8, 0x01#8, 0x00#8] = .ok [0x00#8] ∧
    refDec [0x03#8, 0x11#8, 0x00#8, 0x22#8, 0x00#8] = .err [0x11#8] ∧
    refDec [0x03#8, 0x11#8] = .incomplete [0x11#8] := by decide

/-! ## Witnesses: for each statement with hypotheses, a state and operands that meet them together -/

theorem test_witness_DecodeOfEncodeIsTheInstruction :
    (Instr.runz 1).wellFormed = true ∧ (Instr.runz 253).wellFormed = true ∧ (Instr.lit 0x01#8).wellFormed = true ∧
    (Instr.lit 0xFF#8).wellFormed = true ∧ (Instr.pull 4294967295).wellFormed = true := by decide

theorem test_witness_FeedingBytesRunsTheirInstructions :
    State.reset.dec.state = .code ∧ (decodeFrame [0x02#8, 0x11#8, 0x00#8]).length = 3 := by decide

theorem test_witness_StepRunsTheDecodedRequest :
    { State.reset with pending := [.request (.decOp 0#1 0x02#8)] }.pending = .request (.decOp 0#1 0x02#8) :: [] ∧
    decode (.decOp 0#1 0x02#8) = .ok (.feed 0x02#8) := by decide

theorem test_witness_UndecodableRequestStops :
    step { State.reset with pending := [.request (.encStep 7#3)] } = .refused .undecodable ∧
    step { State.reset with pending := [.request (.unassigned 9 511)] } = .refused .undecodable := ⟨rfl, rfl⟩

theorem test_witness_PlacedTableWordRunsNext :
    decodeTableWord 8 0xFF = some .runf ∧ decodeTableWord 16 0x0105 = some (.lit 0x05#8) ∧
    decodeTableWord 3 4 = some .nzd := by decide

theorem test_witness_IdleStepsAndHardwareResets :
    State.reset.pending = [] ∧
    { State.reset with pending := [.hardwareReset .decoder] }.pending = .hardwareReset .decoder :: [] ∧
    { deadEncoder with pending := [.hardwareReset .encoder] }.pending = .hardwareReset .encoder :: [] := by decide

theorem test_witness_PendingRequestsRunInOrder :
    ∀ i ∈ [Instr.feed 0x02#8, Instr.start [[0x11#8]], Instr.pull 4294967295], i.wellFormed = true := by decide

/-- For Term, Zero, Runz at both ends of its range, Runf, FeedFollows, and the second clause of ZeroInADataRun. -/
theorem test_witness_code_position :
    (decoderIn .code 0 true).dec.state = .code ∧ (decoderIn .code 0 false).dec.state = .code ∧
    1 ≤ 1 ∧ 1 ≤ 253 ∧ 253 ≤ 253 := by decide

/-- For Lit at both ends of its range, Illz, FeedFollows, WireInstructionInTheOtherPosition, ZeroInADataRun. -/
theorem test_witness_data_position :
    (decoderIn .data 1 true).dec.state = .data ∧ (decoderIn .data 254 false).dec.state = .data ∧
    0x01#8 ≠ 0x00#8 ∧ 0xFF#8 ≠ 0x00#8 := by decide

/-- For FinishedDecoderAnswersProtocolError and the third clause of FeedFollows. -/
theorem test_witness_finished : (decoderIn .finished 254 true).dec.state = .finished := by decide

/-- One byte at each side of each clause of the transition table. -/
theorem test_witness_FeedFollowsTheTransitionTable :
    fed (exec (.feed 0xFE#8) (decoderIn .code 0 false)) =
      some (some .consumed, none, { state := .data, remaining := 253, pendingZero := true }) ∧
    fed (exec (.feed 0xFF#8) (decoderIn .code 0 false)) =
      some (some .consumed, none, { state := .data, remaining := 254, pendingZero := false }) ∧
    fed (exec (.feed 0x02#8) (decoderIn .code 0 false)) =
      some (some .consumed, none, { state := .data, remaining := 1, pendingZero := true }) := by decide

theorem test_witness_FrameCompleteExactlyOnTheTerminator :
    ∃ t, exec (.feed 0x00#8) (decoderIn .code 0 true) = .next t ∧ t.ports.decRes = some .frameComplete :=
  ⟨_, rfl, rfl⟩

theorem test_witness_OutputBytesComeFromOwedZerosAndLiterals :
    (∃ t, exec (.feed 0x01#8) (decoderIn .code 0 true) = .next t ∧ t.ports.decOut = some 0x00#8) ∧
    (∃ t, exec (.feed 0x41#8) (decoderIn .data 1 true) = .next t ∧ t.ports.decOut = some 0x41#8) :=
  ⟨⟨_, rfl, rfl⟩, ⟨_, rfl, rfl⟩⟩

theorem test_witness_DecoderComputesTheReferenceDecoding :
    State.reset.dec = Decoder.reset ∧ refDec [0x02#8, 0x41#8, 0x00#8] = .ok [0x41#8] ∧
    refDec [0x02#8, 0x00#8] = .err [] ∧ refDec [] = .incomplete [] := by decide

theorem test_witness_PeekFindsTheNextZero : State.reset.enc.dead = false := by decide

theorem test_witness_Cpull1ConsumesOneByte :
    (encoderIn .owned .fin [[0x11#8], [], [0x22#8]] 0).enc.dead = false ∧
    (encoderIn .owned .fin [[0x11#8], [], [0x22#8]] 0).enc.mem.wf = true ∧
    (encoderIn .owned .fin [[0x11#8], [], [0x22#8]] 0).enc.mem.rest = 0x11#8 :: [0x22#8] := by decide

theorem test_witness_CpullConsumesExactlyNBytes :
    (encoderIn .owned .fin [[0x11#8, 0x22#8], [0x33#8]] 0).enc.dead = false ∧
    (encoderIn .owned .fin [[0x11#8, 0x22#8], [0x33#8]] 0).enc.mem.wf = true ∧
    0 ≤ (encoderIn .owned .fin [[0x11#8, 0x22#8], [0x33#8]] 0).enc.mem.rest.length ∧
    3 ≤ (encoderIn .owned .fin [[0x11#8, 0x22#8], [0x33#8]] 0).enc.mem.rest.length := by decide

theorem test_witness_PullingTooMuchTakesCursorUnderrun :
    (encoderIn .owned .fin [] 0).enc.dead = false ∧ (encoderIn .owned .fin [] 0).enc.mem.rest = [] ∧
    (encoderIn .owned .fin [[0x11#8]] 0).enc.mem.rest.length < 2 ∧
    (encoderIn .owned (.zc 0) [] 0).enc.mem.rest = [] ∧ (encoderIn .owned (.zc 0) [] 0).enc.state = .zc 0 := by decide

/-- For Zfb, Nzc, Fz, Fin. -/
theorem test_witness_steps_that_consume_nothing :
    (encoderIn .owned .zfb [[0x00#8]] 0).enc.dead = false ∧
    (encoderIn .owned .zfb [[0x00#8]] 0).enc.state = .zfb ∧
    (encoderIn .owned (.nzc 1) [[0x01#8]] 0).enc.state = .nzc 1 ∧
    (encoderIn .owned .fz [] 0).enc.state = .fz ∧ (encoderIn .owned .fin [] 0).enc.state = .fin := by decide

theorem test_witness_ZcEmitsTheCodeOfTheNextChunk :
    (encoderIn .owned (.zc 0) [[0x00#8, 0x11#8]] 0).enc.dead = false ∧
    (encoderIn .owned (.zc 0) [[0x00#8, 0x11#8]] 0).enc.state = .zc 0 ∧
    (encoderIn .owned (.zc 0) [[0x00#8, 0x11#8]] 0).enc.mem.wf = true ∧
    (encoderIn .owned (.zc 0) [[0x00#8, 0x11#8]] 0).enc.mem.rest = 0x00#8 :: [0x11#8] ∧
    (encoderIn .owned (.zc 1) [[0x11#8, 0x00#8]] 0).enc.state = .zc 1 := by decide

/-- One distance at each side of each clause of the transition table. -/
theorem test_witness_afterProbe :
    afterProbe (.zero 0) = (.zc 0, 0x01#8) ∧ afterProbe (.zero 1) = (.zd 1 .zc 1, 0x02#8) ∧
    afterProbe (.zero 253) = (.zd 253 .zc 253, 0xFE#8) ∧ afterProbe (.zero 254) = (.zd 254 .zfb 254, 0xFF#8) ∧
    afterProbe (.zero 255) = (.zd 254 .zc 255, 0xFF#8) ∧ afterProbe (.noZero 0) = (.fz, 0x01#8) ∧
    afterProbe (.noZero 253) = (.nzd 253 253 false, 0xFE#8) ∧
    afterProbe (.noZero 254) = (.nzd 254 254 true, 0xFF#8) := by decide

theorem test_witness_ZdEmitsAPayloadByteAndReturnsThroughPost :
    (encoderIn .owned (.zd 1 .zc 1) [[0x11#8, 0x00#8]] 0).enc.dead = false ∧
    (encoderIn .owned (.zd 1 .zc 1) [[0x11#8, 0x00#8]] 0).enc.state = .zd 1 .zc 1 ∧
    (encoderIn .owned (.zd 1 .zc 1) [[0x11#8, 0x00#8]] 0).enc.mem.wf = true ∧
    (encoderIn .owned (.zd 1 .zc 1) [[0x11#8, 0x00#8]] 0).enc.mem.rest = 0x11#8 :: [0x00#8] := by decide

theorem test_witness_NzdEmitsAPayloadByteOfTheTail :
    (encoderIn .owned (.nzd 1 1 true) [[0xFE#8]] 0).enc.dead = false ∧
    (encoderIn .owned (.nzd 1 1 true) [[0xFE#8]] 0).enc.state = .nzd 1 1 true ∧
    (encoderIn .owned (.nzd 1 1 true) [[0xFE#8]] 0).enc.mem.wf = true ∧
    (encoderIn .owned (.nzd 1 1 true) [[0xFE#8]] 0).enc.mem.rest = 0xFE#8 :: [] := by decide

theorem test_witness_StepOfAnotherTagStops : (EncState.zc 5).tag ≠ State.reset.enc.state.tag := by decide

theorem test_witness_EachStepEmitsExactlyOneByte :
    ∃ p, (encoderIn .owned .fz [] 0).enc.mem.wf = true ∧ (encoderIn .owned .fz [] 0).enc.state ≠ .fin ∧
      encoderStep (encoderIn .owned .fz [] 0).enc = .ok p :=
  ⟨{ enc := (encoderIn .owned .fin [] 0).enc, bytes := [0x00#8], rel := [] }, by decide⟩

theorem test_witness_StartOwnsTheChainAndProbes :
    State.reset.enc.dead = false ∧ State.reset.enc.life ≠ .owned ∧
    (encoderIn .disposed .fin [] 0).enc.life ≠ .owned := by decide

theorem test_witness_StartForgetsEarlierFrames :
    (∃ t, exec (.start [[0x11#8]]) State.reset = .next t) ∧
    (∃ t, exec (.start [[0x11#8]]) (encoderIn .disposed (.nzd 1 1 false) [] 0) = .next t) :=
  ⟨⟨_, rfl⟩, ⟨_, rfl⟩⟩

/-- An owned encoder in mid-chunk that meets its invariant; it meets the hypotheses of PullsConcatenate as well. -/
theorem test_witness_PullCompletesOnAnOwnedEncoder :
    encoderOk (encoderIn .owned (.zd 1 .zc 1) [[0x11#8, 0x00#8]] 0).enc ∧
    (encoderIn .owned (.zd 1 .zc 1) [[0x11#8, 0x00#8]] 0).enc.dead = false ∧
    (encoderIn .owned (.zd 1 .zc 1) [[0x11#8, 0x00#8]] 0).enc.life = .owned :=
  ⟨⟨by decide, by simp [encoderIn, dataLeftFits],
    ⟨by decide, by decide, by decide, by decide, by decide⟩⟩, by decide, by decide⟩

theorem test_witness_PullOfOneIsOneStep : (encoderIn .owned .fz [] 0).enc.life = .owned := by decide

theorem test_witness_PullOfNothingAndPullInFinChangeNothing :
    (encoderIn .disposed .fin [] 0).enc.dead = false ∧ (encoderIn .disposed .fin [] 0).enc.life ≠ .unstarted ∧
    (encoderIn .disposed .fin [] 0).enc.state = .fin ∧
    (encoderIn .owned (.nzc 1) [[0x01#8]] 0).enc.life = .owned := by decide

theorem test_witness_LifecycleFaultsKillTheEncoder :
    State.reset.enc.dead = false ∧ State.reset.enc.life = .unstarted ∧
    (encoderIn .disposed (.nzd 2 2 false) [] 0).enc.life = .disposed ∧
    (encoderIn .disposed (.nzd 2 2 false) [] 0).enc.state ≠ .fin ∧
    (encoderIn .owned .fin [] 0).enc.life = .owned := by decide

theorem test_witness_AbortForcesFinAndKeepsTheChain :
    (encoderIn .owned (.nzc 1) [[0x01#8]] 0).enc.dead = false ∧
    (encoderIn .owned (.nzc 1) [[0x01#8]] 0).enc.life ≠ .unstarted := by decide

theorem test_witness_DisposeReleasesWhatIsRetained :
    (encoderIn .owned .fin [[0x22#8, 0x33#8], [0x44#8]] 1).enc.life = .owned ∧
    (encoderIn .disposed .fin [] 0).enc.life ≠ .owned ∧
    ∃ t, exec .dispose (encoderIn .owned .fin [[0x22#8, 0x33#8], [0x44#8]] 1) = .next t :=
  ⟨by decide, by decide, _, rfl⟩

theorem test_witness_DeadEncoderRefusesEveryOperation :
    deadEncoder.enc.dead = true ∧ encoderOperation (.start [[0x11#8]]) = true ∧
    Instr.fin = selectedStep deadEncoder.enc.state ∧ exec (.cpull 0) deadEncoder = .next deadEncoder :=
  ⟨rfl, rfl, rfl, rfl⟩

theorem test_witness_EncoderComputesTheReferenceFrame :
    State.reset.enc.dead = false ∧ State.reset.enc.life ≠ .owned ∧
    (refEnc (List.flatten [[0x11#8], [0x00#8]])).length ≤ [3, 0, 2].sum := by decide

theorem test_witness_EverySegmentComesBackExactlyOnce :
    State.reset.enc.dead = false ∧ State.reset.enc.life ≠ .owned := by decide

theorem test_witness_EncodedFrameDecodesToThePayload :
    State.reset.enc.dead = false ∧ State.reset.enc.life ≠ .owned ∧ State.reset.dec = Decoder.reset ∧
    (refEnc (List.flatten [[0x11#8], [0x00#8]])).length ≤ 4 := by decide

theorem test_witness_FrameHoldsNoZeroButTheLast :
    ∃ ps t, issue [.start [[0x00#8]], .pull 2] State.reset = some (ps, t) := ⟨_, _, rfl⟩

/-- A host request pending, both machines within their invariants. -/
theorem test_witness_EveryStepKeepsTheInvariants :
    stateOk { State.reset with pending := [.request (.encOp 0#2 [[0x11#8]] 0)] } ∧
    hostDriven { State.reset with pending := [.request (.encOp 0#2 [[0x11#8]] 0)] } ∧
    ∃ t, step { State.reset with pending := [.request (.encOp 0#2 [[0x11#8]] 0)] } = .next t :=
  ⟨⟨rfl, by decide, trivial, rfl, rfl⟩, by simp [hostDriven, hostInput, Slot.isHost], _, rfl⟩

theorem test_witness_HostRequestsNeverStopTheMachine :
    hostDriven { State.reset with pending := [.request (.decOp 0#1 0x00#8), .hardwareReset .encoder] } := by
  simp [hostDriven, hostInput, Slot.isHost]

/-- The three cells of the lifecycle table, each from a state within the invariants. -/
theorem test_witness_FaultsOccurExactlyInTheLifecycleCells :
    hostOperation (.pull 1) = true ∧ hostOperation (.start []) = true ∧ stateOk State.reset ∧
    stateOk (encoderIn .disposed (.nzd 2 2 false) [] 0) ∧ stateOk (encoderIn .owned .fin [] 0) ∧
    (∃ t, exec (.pull 1) State.reset = .next t ∧ t.ports.fault = some .notStarted) ∧
    (∃ t, exec (.pull 1) (encoderIn .disposed (.nzd 2 2 false) [] 0) = .next t ∧
      t.ports.fault = some .useAfterDispose) ∧
    (∃ t, exec (.start []) (encoderIn .owned .fin [] 0) = .next t ∧ t.ports.fault = some .startWhileOwned) :=
  ⟨rfl, rfl, ⟨rfl, by decide, trivial, rfl, rfl⟩, ⟨rfl, by decide, by simp [encoderIn, dataLeftFits], rfl⟩,
    ⟨rfl, by decide, trivial, trivial⟩, ⟨_, rfl, rfl⟩, ⟨_, rfl, rfl⟩, ⟨_, rfl, rfl⟩⟩

theorem test_witness_EachInstructionLeavesTheOtherMachineAlone :
    (∃ t, exec (.feed 0x02#8) State.reset = .next t) ∧ actsOnDecoder (.feed 0x02#8) = true ∧
    (∃ t, exec .abort State.reset = .next t) ∧ actsOnDecoder .abort = false := ⟨⟨_, rfl⟩, rfl, ⟨_, rfl⟩, rfl⟩

theorem test_witness_MemoryIsUntouchedByWhatConsumesNothing :
    (∃ t, exec .zfb (encoderIn .owned .zfb [[0x00#8]] 0) = .next t) ∧
    (∃ t, exec .nzc (encoderIn .owned (.nzc 1) [[0x01#8]] 0) = .next t) ∧
    (∃ t, exec .fz (encoderIn .owned .fz [] 0) = .next t) ∧
    (∃ t, exec .peek (encoderIn .owned .fin [[0x01#8]] 0) = .next t) := ⟨⟨_, rfl⟩, ⟨_, rfl⟩, ⟨_, rfl⟩, ⟨_, rfl⟩⟩

theorem test_witness_NoInstructionWritesTheChain :
    (encoderIn .owned (.nzd 1 1 false) [[0x01#8]] 0).enc.mem.wf = true ∧ (∀ chain, Instr.nzd ≠ .start chain) ∧
    ∃ t, exec .nzd (encoderIn .owned (.nzd 1 1 false) [[0x01#8]] 0) = .next t := ⟨rfl, by simp, _, rfl⟩

theorem test_witness_InterleavingDoesNotShow :
    (∀ i ∈ [Instr.start [[0x11#8]], .feed 0x02#8, .pull 1], hostOperation i = true) ∧
    ∃ ps t, issue [.start [[0x11#8]], .feed 0x02#8, .pull 1] State.reset = some (ps, t) :=
  ⟨by decide, _, _, rfl⟩

end Sys2Proof.Tests
end

section
/-! # The invariants of both machines (R23, R33, R34): every step of a host-driven machine keeps them -/

namespace Sys2Proof.Safety

open Sys2Proof.Machine

/-! ## The decoder's invariant (R23), state by state -/

theorem decoderOk_code {d : Decoder} (h : d.state = .code) : decoderOk d ↔ d.remaining = 0 := by
  simp [decoderOk, h]

theorem decoderOk_data {d : Decoder} (h : d.state = .data) :
    decoderOk d ↔ 1 ≤ d.remaining.toNat ∧ d.remaining.toNat ≤ 254 := by simp [decoderOk, h]

theorem decoderOk_finished {d : Decoder} (h : d.state = .finished) : decoderOk d ↔ d.remaining.toNat ≤ 254 := by
  simp [decoderOk, h]

theorem decoderOk_reset : decoderOk Decoder.reset := rfl

/-! ## Every decoder operation keeps it -/

/-- An operation on the decoder's registers keeps the decoder's invariant. -/
def keepsDecoderOk (f : Decoder → Decoder × Ports) : Prop := ∀ d, decoderOk d → decoderOk (f d).1

/-- A run of 1 to 254 data bytes, loaded into the counter (R134), meets R23 (b). -/
theorem decoderOk_run {n : Nat} (h1 : 1 ≤ n) (h2 : n ≤ 254) (owed : Bool) :
    decoderOk { state := .data, remaining := BitVec.ofNat Config.decRemBits n, pendingZero := owed } := by
  rw [decoderOk_data rfl, counter_load (Nat.lt_of_le_of_lt h2 (by decide))]
  exact ⟨h1, h2⟩

/-- The countdown of a run (R146): at 0 the position is `Code` again, until then bytes remain. -/
theorem feedLit_decoderOk (b : Byte) {d : Decoder} (hs : d.state = .data) (h : decoderOk d) :
    decoderOk (feedLit b d).1 := by
  obtain ⟨h1, h2⟩ := (decoderOk_data hs).mp h
  by_cases hz : d.remaining - 1 = 0
  · rw [decoderOk_code (if_pos hz)]
    exact hz
  · rw [decoderOk_data ((if_neg hz).trans hs)]
    have hdec : (feedLit b d).1.remaining.toNat = d.remaining.toNat - 1 := counter_decrement h1
    rw [counter_ended_iff h1] at hz
    omega

/-- FEED (R140) in `Code`: the code byte decides the next state. -/
theorem feedByte_code_decoderOk (b : Byte) {d : Decoder} (hs : d.state = .code) (h : decoderOk d) :
    decoderOk (feedByte b d).1 := by
  have hr : d.remaining = 0 := (decoderOk_code hs).mp h
  simp only [feedByte, hs]
  split
  case isTrue =>
    rw [decoderOk_finished rfl]
    simp [feedTerm, hr]
  case isFalse h0 =>
    split
    case isTrue => simpa [feedZero, payOwedZero_eq, decoderOk, hs] using hr
    case isFalse h1 =>
      split
      case isTrue => exact decoderOk_run (by decide) (by decide) _
      case isFalse h255 =>
        obtain ⟨hlo, hhi⟩ := dataCount_bounds h0 h1 h255
        exact decoderOk_run hlo (by omega) _

/-- FEED (R140) from any state. -/
theorem feedByte_keepsDecoderOk (b : Byte) : keepsDecoderOk (feedByte b) := by
  intro d h
  cases hs : d.state with
  | code => exact feedByte_code_decoderOk b hs h
  | data =>
    simp only [feedByte, hs]
    split
    · exact ((decoderOk_data hs).mp h).2
    · exact feedLit_decoderOk b hs h
  | finished => simpa [feedByte, hs, feedFinished] using h

/-! ## What a pull leaves ahead (R165), through the encoder -/

/-- Pulling a byte in front of a zero brings the zero one byte nearer. -/
theorem encoder_pull1_of_peek_zero_succ {e : Encoder} {d : Nat} (hwf : e.mem.wf = true)
    (h : e.mem.peek = .zero (d + 1)) :
    ∃ b m k, e.pull1 = .ok (b, e.withMemory m k, e.releases k) ∧ m.wf = true ∧ m.peek = .zero d := by
  rw [peek_eq_probe] at h
  cases hr : e.mem.rest with
  | nil => simp [hr] at h
  | cons b r =>
    obtain ⟨m, k, hp, hrest, hw, -, -⟩ := encoder_pull1_of_rest hwf hr
    rw [hr] at h
    exact ⟨b, m, k, hp, hw, by rw [peek_eq_probe, hrest]; exact (probe_tail_of_zero h).2⟩

/-- Pulling a byte of a zero-free payload leaves one byte less. -/
theorem encoder_pull1_of_peek_noZero_succ {e : Encoder} {t : Nat} (hwf : e.mem.wf = true)
    (h : e.mem.peek = .noZero (t + 1)) :
    ∃ b m k, e.pull1 = .ok (b, e.withMemory m k, e.releases k) ∧ m.wf = true ∧ m.peek = .noZero t := by
  rw [peek_eq_probe] at h
  cases hr : e.mem.rest with
  | nil => simp [hr] at h
  | cons b r =>
    obtain ⟨m, k, hp, hrest, hw, -, -⟩ := encoder_pull1_of_rest hwf hr
    rw [hr] at h
    exact ⟨b, m, k, hp, hw, by rw [peek_eq_probe, hrest]; exact (probe_tail_of_noZero h).2⟩

/-- On a zero the pull takes that zero; what follows it is not known. -/
theorem encoder_pull1_of_peek_zero_zero {e : Encoder} (hwf : e.mem.wf = true) (h : e.mem.peek = .zero 0) :
    ∃ m k, e.pull1 = .ok (0x00#8, e.withMemory m k, e.releases k) ∧ m.wf = true := by
  obtain ⟨r, hr⟩ := probe_zero_zero h
  obtain ⟨m, k, hp, -, hw, -, -⟩ := encoder_pull1_of_rest hwf hr
  exact ⟨m, k, hp, hw⟩

/-- `NoZero(0)` says that nothing is held. -/
theorem eq_empty_of_peek_noZero_zero {m : Memory} (hwf : m.wf = true) (h : m.peek = .noZero 0) : m = Memory.empty := by
  rw [← rest_eq_nil_of_wf hwf, ← List.length_eq_zero_iff]
  exact ((probe_noZero_iff m.rest 0).mp h).1.symm

/-! ## The invariant of an owned encoder (R33, R34) -/

/-- The normal form and what `enc.state` promises of the chain: the part of `encoderOk` a step of the encoder needs. -/
def ownedOk (e : Encoder) : Prop := e.mem.wf = true ∧ stateAgrees e.state e.mem

/-- What a state promises of an owned chain includes the bound on `enc.dataLeft` (R27). -/
theorem dataLeftFits_of_stateAgrees {t : EncState} {m : Memory} (h : stateAgrees t m) : dataLeftFits t := by
  cases t with
  | zd _ _ _ | nzd _ _ _ => exact h.2.1
  | zfb | zc _ | nzc _ | fz | fin => trivial

theorem encoderOk_owned_iff {e : Encoder} (h : e.life = .owned) : encoderOk e ↔ ownedOk e := by
  simp only [encoderOk, ownedOk, h]
  exact ⟨fun ⟨hwf, _, hst⟩ => ⟨hwf, hst⟩, fun ⟨hwf, hst⟩ => ⟨hwf, dataLeftFits_of_stateAgrees hst, hst⟩⟩

/-- The next chunk of the zeros path (R180) promises the zero where the probe saw it. -/
theorem chunkz_ownedOk {e : Encoder} {d : Nat} (hwf : e.mem.wf = true) (hd : d ≠ 0) (h : e.mem.peek = .zero d)
    (rel : List Nat) : ownedOk (chunkz d rel e).enc := by
  obtain ⟨hlo, hcap, hle⟩ := chunkLength_bounds hd
  refine ⟨hwf, ?_⟩
  simp only [chunkz, goto_state, goto_mem, stateAgrees, chunkLength_load]
  refine ⟨hlo, hcap, hle, h, fun hpost => ?_⟩
  by_cases hfull : d = 254
  · rw [hfull, chunkLength_full (Nat.le_refl _)]
  · rw [postFor_short hfull] at hpost
    cases hpost

/-- The next chunk of a zero-free tail (R181) promises the tail the probe counted. -/
theorem nzcode_ownedOk {e : Encoder} {t : Nat} (hwf : e.mem.wf = true) (h : e.mem.peek = .noZero t) (rel : List Nat) :
    ownedOk (nzcode t rel e).enc := by
  by_cases ht : t = 0
  · subst ht
    exact ⟨hwf, eq_empty_of_peek_noZero_zero hwf h⟩
  · obtain ⟨hlo, hcap, hle⟩ := chunkLength_bounds ht
    rw [nzcode_pos ht]
    refine ⟨hwf, ?_⟩
    have hload : ((chunkLength t : BitVec Config.encDlBits)).toNat = chunkLength t := chunkLength_load t
    simp only [goto_state, goto_mem, stateAgrees, hload]
    refine ⟨hlo, hcap, hle, h, fun hshort => ?_⟩
    rcases Nat.lt_or_ge t 254 with hlt | hge
    · exact chunkLength_short hlt
    · rw [fullFlag_full hge] at hshort
      cases hshort

/-! ## No step of an owned encoder faults, and each keeps the invariant -/

/-- The computation completes and leaves an owned encoder's invariant in place. -/
def completesOwnedOk (r : Except Fault Production) : Prop := ∃ p, r = .ok p ∧ ownedOk p.enc

/-- Step `ZC` (R179): off a zero the known distance is chunked, on a zero the rest is probed anew. -/
theorem stepZc_ownedOk {e : Encoder} {nzo : Nat} (hwf : e.mem.wf = true) (h : e.mem.peek = .zero nzo) :
    completesOwnedOk (stepZc nzo e) := by
  by_cases hn : nzo = 0
  · subst hn
    obtain ⟨m, k, hp, hw⟩ := encoder_pull1_of_peek_zero_zero hwf h
    refine ⟨_, stepZc_zero hp, ?_⟩
    cases hpk : m.peek with
    | noZero t => simpa [hpk] using nzcode_ownedOk (e := e.withMemory m k) hw hpk _
    | zero d =>
      cases d with
      | zero => simpa [hpk, ownedOk, stateAgrees] using hw
      | succ d => simpa [hpk] using chunkz_ownedOk (e := e.withMemory m k) hw (Nat.succ_ne_zero d) hpk _
  · exact ⟨_, stepZc_pos hn e, chunkz_ownedOk hwf hn h _⟩

/-- Step `ZD` (R182): both counters and the zero come one nearer together, so the state `enc.post` names finds the zero
where it expects it. -/
theorem stepZd_ownedOk {e : Encoder} {dataLeft : BitVec Config.encDlBits} {post : Post} {nzo : Nat}
    (hwf : e.mem.wf = true) (h : stateAgrees (.zd dataLeft post nzo) e.mem) :
    completesOwnedOk (stepZd dataLeft post nzo e) := by
  obtain ⟨hlo, hcap, hle, hpk, hpost⟩ := h
  obtain ⟨n, rfl⟩ : ∃ n, nzo = n + 1 := ⟨nzo - 1, by omega⟩
  obtain ⟨b, m, k, hp, hw, hpk'⟩ := encoder_pull1_of_peek_zero_succ hwf hpk
  refine ⟨_, stepZd_ok hp _ _ _, hw, ?_⟩
  by_cases hz : dataLeft - 1 = 0
  · have hone := (counter_ended_iff hlo).mp hz
    simp only [goto_state, goto_mem, withMemory_mem, if_pos hz, Nat.add_sub_cancel]
    cases post with
    | zc => exact hpk'
    | zfb =>
      have hn : n = 0 := by have := hpost rfl; omega
      rw [hn] at hpk'
      exact hpk'
  · have hmore : dataLeft.toNat ≠ 1 := mt (counter_ended_iff hlo).mpr hz
    simp only [goto_state, goto_mem, withMemory_mem, if_neg hz, Nat.add_sub_cancel, stateAgrees, counter_decrement hlo]
    exact ⟨by omega, by omega, by omega, hpk', fun hq => by have := hpost hq; omega⟩

/-- Step `NZD` (R184): both counters and the tail shrink together, so a short chunk ends with nothing held (C1). -/
theorem stepNzd_ownedOk {e : Encoder} {tail : Nat} {dataLeft : BitVec Config.encDlBits} {full : Bool}
    (hwf : e.mem.wf = true) (h : stateAgrees (.nzd tail dataLeft full) e.mem) :
    completesOwnedOk (stepNzd tail dataLeft full e) := by
  obtain ⟨hlo, hcap, hle, hpk, hshort⟩ := h
  obtain ⟨t, rfl⟩ : ∃ t, tail = t + 1 := ⟨tail - 1, by omega⟩
  obtain ⟨b, m, k, hp, hw, hpk'⟩ := encoder_pull1_of_peek_noZero_succ hwf hpk
  refine ⟨_, stepNzd_ok hp _ _ _, hw, ?_⟩
  by_cases hz : dataLeft - 1 = 0
  · have hone := (counter_ended_iff hlo).mp hz
    simp only [goto_state, goto_mem, withMemory_mem, if_pos hz, Nat.add_sub_cancel]
    cases full with
    | true => exact hpk'
    | false =>
      have ht : t = 0 := by have := hshort rfl; omega
      rw [ht] at hpk'
      exact eq_empty_of_peek_noZero_zero hw hpk'
  · have hmore : dataLeft.toNat ≠ 1 := mt (counter_ended_iff hlo).mpr hz
    simp only [goto_state, goto_mem, withMemory_mem, if_neg hz, Nat.add_sub_cancel, stateAgrees, counter_decrement hlo]
    exact ⟨by omega, by omega, by omega, hpk', fun hq => by have := hshort hq; omega⟩

/-- STEP (R177): whatever the tag selects, no step of an owned encoder faults and each keeps its invariant. -/
theorem encoderStep_ownedOk {e : Encoder} (h : ownedOk e) : completesOwnedOk (encoderStep e) := by
  obtain ⟨hwf, hst⟩ := h
  cases hs : e.state with
  | zfb => rw [hs] at hst; rw [encoderStep_zfb hs]; exact ⟨_, rfl, hwf, hst⟩
  | zc nzo => rw [hs] at hst; rw [encoderStep_zc hs]; exact stepZc_ownedOk hwf hst
  | zd dataLeft post nzo => rw [hs] at hst; rw [encoderStep_zd hs]; exact stepZd_ownedOk hwf hst
  | nzc tail => rw [hs] at hst; rw [encoderStep_nzc hs]; exact ⟨_, rfl, nzcode_ownedOk hwf hst _⟩
  | nzd tail dataLeft full => rw [hs] at hst; rw [encoderStep_nzd hs]; exact stepNzd_ownedOk hwf hst
  | fz => rw [encoderStep_fz hs]; exact ⟨_, rfl, hwf, trivial⟩
  | fin => rw [encoderStep_fin hs]; exact ⟨_, rfl, hwf, hst⟩

/-- The loop of PULL (R176), by induction on its bound: it never faults on an owned encoder, keeps its invariant, and
leaves the lifecycle register alone. -/
theorem pullLoop_ownedOk (max : Nat) {e : Encoder} (h : ownedOk e) :
    ∃ q, pullLoop max e = .ok q ∧ ownedOk q.enc ∧ q.enc.life = e.life := by
  induction max generalizing e with
  | zero => exact ⟨_, pullLoop_zero e, h, rfl⟩
  | succ n ih =>
    by_cases hfin : e.state = .fin
    · exact ⟨_, pullLoop_fin hfin _, h, rfl⟩
    · obtain ⟨p, hp, hpok⟩ := encoderStep_ownedOk h
      obtain ⟨q, hq, hqok, hlife⟩ := ih hpok
      have hloop := pullLoop_succ hfin hp n
      rw [hq] at hloop
      exact ⟨_, hloop, hqok, hlife.trans (encoderStep_keeps hp).1⟩

/-! ## Every encoder operation keeps the encoder's invariant -/

theorem encoderOk_reset : encoderOk Encoder.reset := ⟨rfl, trivial, rfl, rfl⟩

/-- An operation on the encoder's registers keeps the encoder's invariant where it completes. -/
def keepsEncoderOk (f : Encoder → Except Fault (Encoder × Ports)) : Prop :=
  ∀ e e' p, encoderOk e → f e = .ok (e', p) → encoderOk e'

/-- The first state finds the chain as the probe of START saw it (R175). -/
theorem stateAgrees_firstState (m : Memory) : stateAgrees (firstState m.peek) m := by
  cases hp : m.peek with
  | noZero t => exact hp
  | zero d => cases d <;> exact hp

/-- START (R175) answers a new owned chain, whatever the registers held (R44). -/
theorem encStart_keepsEncoderOk (chain : Chain) : keepsEncoderOk (encStart chain) := by
  intro e e' p _ h
  unfold encStart at h
  split at h
  · cases h
  · cases h
    rw [encoderOk_owned_iff rfl]
    exact ⟨load_wf chain, stateAgrees_firstState _⟩

/-- PULL (R176) completes in `Owned` through the loop, and in `Disposed` only in `FIN`, where it changes nothing. -/
theorem encPull_keepsEncoderOk (max : Nat) : keepsEncoderOk (producing (encPull max)) := by
  intro e e' p hok h
  cases hl : e.life with
  | unstarted =>
    rw [producing_error (fault := .notStarted) (by simp [encPull, hl])] at h
    cases h
  | owned =>
    obtain ⟨q, hq, hqok, hlife⟩ := pullLoop_ownedOk max ((encoderOk_owned_iff hl).mp hok)
    rw [producing_ok (p := q) (by simp [encPull, hl, hq])] at h
    cases h
    exact (encoderOk_owned_iff (hlife.trans hl)).mpr hqok
  | disposed =>
    by_cases hfin : e.state = .fin
    · rw [producing_ok (by simp only [encPull, hl, if_pos hfin]; exact pullLoop_fin hfin max)] at h
      cases h
      exact hok
    · rw [producing_error (fault := .useAfterDispose) (by simp [encPull, hl, hfin])] at h
      cases h

/-- ABORT (R187) forces `FIN`, which promises nothing of the chain. -/
theorem encAbort_keepsEncoderOk : keepsEncoderOk encAbort := by
  intro e e' p hok h
  cases h
  obtain ⟨hwf, -, hlife⟩ := hok
  refine ⟨hwf, trivial, ?_⟩
  simp only [goto_life, goto_state, goto_mem]
  cases hl : e.life with
  | unstarted => rw [hl] at hlife; exact ⟨trivial, hlife.2⟩
  | owned => trivial
  | disposed => rw [hl] at hlife; exact hlife

/-- DISPOSE (R188) gives an owned chain back and keeps `enc.state`; otherwise it changes nothing. -/
theorem encDispose_keepsEncoderOk : keepsEncoderOk encDispose := by
  intro e e' p hok h
  unfold encDispose at h
  split at h
  · cases h
    exact ⟨rfl, hok.2.1, rfl⟩
  · cases h
    exact hok

/-! ## The two machines together -/

theorem onDecoder_stateOk {f : Decoder → Decoder × Ports} (hf : keepsDecoderOk f) {s : State} (h : stateOk s) :
    stateOk (onDecoder f s) := ⟨hf s.dec h.1, h.2⟩

/-- A dead encoder's registers stay, a fault sets the dead bit only (R214), and an operation that completes keeps the
invariant. -/
theorem onEncoder_stateOk {f : Encoder → Except Fault (Encoder × Ports)} (hf : keepsEncoderOk f) {s : State}
    (h : stateOk s) : stateOk (onEncoder f s) := by
  obtain ⟨hdec, henc⟩ := h
  refine ⟨by simpa using hdec, ?_⟩
  rcases onEncoder_cases f s with ⟨-, heq⟩ | ⟨-, fault, -, heq⟩ | ⟨-, e, p, he, heq⟩
  · rw [heq]; exact henc
  · rw [heq]; exact henc
  · rw [heq]; exact hf s.enc e p henc he

theorem hardwareReset_stateOk (a : Agent) {s : State} (h : stateOk s) : stateOk (hardwareReset a s) := by
  cases a with
  | decoder => exact ⟨decoderOk_reset, h.2⟩
  | encoder => exact ⟨h.1, encoderOk_reset⟩

/-- A request of the host interface decodes to one of the six operations (R100 to R102). -/
theorem decode_of_isHost {w : Slot} (h : w.isHost = true) : ∃ i, decode w = .ok i ∧ hostOperation i = true := by
  cases w with
  | decOp op din =>
    refine ⟨_, rfl, ?_⟩
    unfold decodeDecOp
    split <;> rfl
  | encOp op chain max =>
    refine ⟨_, rfl, ?_⟩
    unfold decodeEncOp
    split
    · rfl
    · split
      · rfl
      · split <;> rfl
  | wireCode _ | wireData _ | cursor _ _ | encStep _ | unassigned _ _ => cases h

/-- What a host operation does: an operation of one of the two machines that keeps that machine's invariant. -/
theorem exec_hostOperation_cases {i : Instr} (h : hostOperation i = true) (s : State) :
    (∃ f, keepsDecoderOk f ∧ exec i s = .next (onDecoder f s)) ∨
    (∃ f, keepsEncoderOk f ∧ exec i s = .next (onEncoder f s)) := by
  cases i with
  | feed b => exact .inl ⟨_, feedByte_keepsDecoderOk b, rfl⟩
  | reset => exact .inl ⟨_, fun _ _ => decoderOk_reset, rfl⟩
  | start chain => exact .inr ⟨_, encStart_keepsEncoderOk chain, rfl⟩
  | pull max => exact .inr ⟨_, encPull_keepsEncoderOk max, rfl⟩
  | abort => exact .inr ⟨_, encAbort_keepsEncoderOk, rfl⟩
  | dispose => exact .inr ⟨_, encDispose_keepsEncoderOk, rfl⟩
  | term | zero | runz _ | runf | lit _ | illz | peek | cpull1 | cpull _ | zfb | zc | zd | nzc | nzd | fz | fin =>
    cases h

/-- A host operation answers a next state, which meets the invariants again, and leaves the inputs not yet taken. -/
theorem exec_hostOperation_stateOk {i : Instr} (hi : hostOperation i = true) {s : State} (h : stateOk s) :
    ∃ t, exec i s = .next t ∧ stateOk t ∧ t.pending = s.pending := by
  rcases exec_hostOperation_cases hi s with ⟨f, hf, heq⟩ | ⟨f, hf, heq⟩
  · exact ⟨_, heq, onDecoder_stateOk hf h, rfl⟩
  · exact ⟨_, heq, onEncoder_stateOk hf h, onEncoder_pending f s⟩

/-- A pending request that decodes is run by the next step, the request being taken (R13, R75). -/
theorem step_request {s : State} {w : Slot} {rest : List Input} {i : Instr} (h : s.pending = .request w :: rest)
    (hd : decode w = .ok i) : step s = exec i { s with pending := rest } := by simp [step, fetch_cons h, hd]

/-- A step of a host-driven machine answers a next state, which meets the invariants, with the oldest input taken. -/
theorem step_stateOk {s : State} (h : stateOk s) (hhost : hostDriven s) :
    ∃ t, step s = .next t ∧ stateOk t ∧ t.pending = s.pending.tail := by
  cases hp : s.pending with
  | nil => exact ⟨_, step_nil hp, h, hp⟩
  | cons input rest =>
    cases input with
    | hardwareReset a =>
      exact ⟨_, step_hardwareReset hp, hardwareReset_stateOk a h, hardwareReset_pending a _⟩
    | request w =>
      have hw : w.isHost = true := hhost (.request w) (by simp [hp])
      obtain ⟨i, hdec, hi⟩ := decode_of_isHost hw
      rw [step_request hp hdec]
      exact exec_hostOperation_stateOk hi (s := { s with pending := rest }) h

/-- Settles O54: each host operation keeps the invariant of its machine and leaves the other machine alone; the heart is
that every step of an owned encoder leaves the chain as the next state expects it, carried through PULL's loop. -/
theorem everyStepKeepsTheInvariants : Obligations.EveryStepKeepsTheInvariants := by
  intro s t hok hhost hstep
  obtain ⟨t', hstep', hok', hpending⟩ := step_stateOk hok hhost
  obtain rfl : t' = t := by simpa [hstep] using hstep'.symm
  exact ⟨hok', fun i hi => hhost i (List.mem_of_mem_tail (hpending ▸ hi))⟩

end Sys2Proof.Safety
end

section
/-! # The memory and the two machines (R66, R71, R73, R76): what every instruction does to the registers of its own
machine, and that it takes the chain from the front and gives its segments back in order -/

namespace Sys2Proof.Safety

open Sys2Proof.Machine

/-! ## An instruction as an effect on the registers of its own machine (R76) -/

/-- A wire byte's effect in its position; in `Finished` every byte is a `ProtocolError` (R148). -/
def unlessFinished (f : Decoder → Decoder × Ports) (d : Decoder) : Decoder × Ports :=
  if d.state = .finished then feedFinished d else f d

/-- What an instruction of the decoder does to its registers where it answers a next state. -/
def decoderEffect (i : Instr) : Decoder → Decoder × Ports :=
  match i with
  | .term => unlessFinished feedTerm
  | .zero => unlessFinished feedZero
  | .runz n => unlessFinished (feedRunz n)
  | .runf => unlessFinished feedRunf
  | .lit b => unlessFinished (feedLit b)
  | .illz => unlessFinished feedIllz
  | .feed b => feedByte b
  | .reset => fun d => (returnFromResult d, Ports.idle)
  | _ => fun d => (d, Ports.idle)

/-- What an instruction of the encoder does to its registers where it answers a next state; the seven steps are STEP
(R177), each in the state that selects it. -/
def encoderEffect (i : Instr) : Encoder → Except Fault (Encoder × Ports) :=
  match i with
  | .start chain => encStart chain
  | .pull max => producing (encPull max)
  | .abort => encAbort
  | .dispose => encDispose
  | .peek => cursorPeek
  | .cpull1 => cursorPull1
  | .cpull n => cursorPull n
  | .zfb | .zc | .zd | .nzc | .nzd | .fz | .fin => producing encoderStep
  | _ => fun e => .ok (e, Ports.idle)

theorem inCodePosition_next {f : Decoder → Decoder × Ports} {s t : State} (h : inCodePosition f s = .next t) :
    t = onDecoder (unlessFinished f) s := by
  cases hs : s.dec.state with
  | code | finished =>
    simp only [inCodePosition, hs] at h
    cases h
    simp [onDecoder, unlessFinished, hs]
  | data =>
    simp only [inCodePosition, hs] at h
    cases h

theorem inDataPosition_next {f : Decoder → Decoder × Ports} {s t : State} (h : inDataPosition f s = .next t) :
    t = onDecoder (unlessFinished f) s := by
  cases hs : s.dec.state with
  | data | finished =>
    simp only [inDataPosition, hs] at h
    cases h
    simp [onDecoder, unlessFinished, hs]
  | code =>
    simp only [inDataPosition, hs] at h
    cases h

/-- Every next state a decoder instruction answers is its effect on the decoder's registers. -/
theorem exec_decoder {i : Instr} (hi : actsOnDecoder i = true) {s t : State} (h : exec i s = .next t) :
    t = onDecoder (decoderEffect i) s := by
  cases i with
  | term | zero | runz _ | runf => exact inCodePosition_next h
  | lit _ | illz => exact inDataPosition_next h
  | feed _ | reset => cases h; rfl
  | start _ | pull _ | abort | dispose | peek | cpull1 | cpull _ | zfb | zc | zd | nzc | nzd | fz | fin => cases hi

/-- An operation on the encoder reads nothing of the state but the encoder's registers. -/
theorem onEncoder_congr {f g : Encoder → Except Fault (Encoder × Ports)} {s : State} (h : f s.enc = g s.enc) :
    onEncoder f s = onEncoder g s := by simp only [onEncoder, h]

/-- The step `enc.state` selects is STEP (R105, R177). -/
theorem exec_selectedStep (s : State) :
    exec (selectedStep s.enc.state) s = .next (onEncoder (producing encoderStep) s) := by
  cases hs : s.enc.state with
  | zfb | zc _ | zd _ _ _ | nzc _ | nzd _ _ _ | fz | fin =>
    simp only [selectedStep, exec, execZfb, execZc, execZd, execNzc, execNzd, execFz, execFin, hs]
    exact congrArg _ (onEncoder_congr (by simp only [producing, encoderStep, hs]))

/-- A step that answers a next state is the one `enc.state` selects (R105). -/
theorem selectedStep_of_next {st : EncState} {s t : State} (h : exec (selectedStep st) s = .next t) :
    selectedStep s.enc.state = selectedStep st := by
  cases st with
  | zfb | zc _ | zd _ _ _ | nzc _ | nzd _ _ _ | fz | fin =>
    simp only [selectedStep, exec, execZfb, execZc, execZd, execNzc, execNzd, execFz, execFin] at h
    split at h
    · next hs => simp only [hs, selectedStep]
    · cases h

/-- A step that answers a next state is STEP. -/
theorem exec_step {st : EncState} {s t : State} (h : exec (selectedStep st) s = .next t) :
    t = onEncoder (producing encoderStep) s := by
  rw [← selectedStep_of_next h, exec_selectedStep] at h
  cases h
  rfl

/-- Every next state any other instruction answers is its effect on the encoder's registers. -/
theorem exec_encoder {i : Instr} (hi : actsOnDecoder i = false) {s t : State} (h : exec i s = .next t) :
    t = onEncoder (encoderEffect i) s := by
  cases i with
  | start _ | pull _ | abort | dispose | peek | cpull1 | cpull _ => cases h; rfl
  | zfb => exact exec_step (st := .zfb) h
  | zc => exact exec_step (st := .zc 0) h
  | zd => exact exec_step (st := .zd 0 .zc 0) h
  | nzc => exact exec_step (st := .nzc 0) h
  | nzd => exact exec_step (st := .nzd 0 0 false) h
  | fz => exact exec_step (st := .fz) h
  | fin => exact exec_step (st := .fin) h
  | term | zero | runz _ | runf | lit _ | illz | feed _ | reset => cases hi

/-- Settles O57: an instruction is an effect on one machine's registers, which leaves the other's. -/
theorem eachInstructionLeavesTheOtherMachineAlone : Obligations.EachInstructionLeavesTheOtherMachineAlone := by
  intro i s t h
  cases hi : actsOnDecoder i with
  | true => rw [exec_decoder hi h]; simp
  | false => rw [exec_encoder hi h]; simp

/-! ## What consumes nothing leaves the memory (R65, R66) -/

/-- An operation that keeps the memory where it completes keeps it: a dead encoder and a fault leave the memory (R214). -/
theorem onEncoder_mem_eq {f : Encoder → Except Fault (Encoder × Ports)} {s : State}
    (hf : ∀ e p, f s.enc = .ok (e, p) → e.mem = s.enc.mem) : (onEncoder f s).enc.mem = s.enc.mem := by
  rcases onEncoder_cases f s with ⟨-, heq⟩ | ⟨-, fault, -, heq⟩ | ⟨-, e, p, hok, heq⟩
  · rw [heq, answerEnc_enc]
  · rw [heq, takeFault_mem]
  · rw [heq, answerEnc_enc, hf e p hok]

theorem nzcode_mem (t : Nat) (rel : List Nat) (e : Encoder) : (nzcode t rel e).enc.mem = e.mem := by
  unfold nzcode
  split <;> rfl

/-- The steps that pull no byte: `ZFB`, `NZC`, `FZ`, `FIN` (R178, R183, R185, R186). -/
def pullsNothing (i : Instr) : Bool :=
  match i with
  | .zfb | .nzc | .fz | .fin => true
  | _ => false

theorem encoderStep_mem_of_pullsNothing {e : Encoder} (h : pullsNothing (selectedStep e.state) = true) {p : Production}
    (hp : encoderStep e = .ok p) : p.enc.mem = e.mem := by
  cases hs : e.state with
  | zfb => rw [encoderStep_zfb hs] at hp; cases hp; rfl
  | nzc t => rw [encoderStep_nzc hs] at hp; cases hp; exact nzcode_mem t [] e
  | fz => rw [encoderStep_fz hs] at hp; cases hp; rfl
  | fin => rw [encoderStep_fin hs] at hp; cases hp; rfl
  | zc _ | zd _ _ _ | nzd _ _ _ => rw [hs] at h; cases h

/-- An operation that produces wire bytes completes with the response of a production. -/
theorem producing_eq_ok {f : Encoder → Except Fault Production} {e e' : Encoder} {ports : Ports}
    (h : producing f e = .ok (e', ports)) : ∃ p, f e = .ok p ∧ (e', ports) = p.response := by
  unfold producing at h
  split at h
  · cases h
  · next p hp => cases h; exact ⟨p, hp, rfl⟩

theorem exec_mem_of_pullsNothing {st : EncState} (hst : pullsNothing (selectedStep st) = true) {s t : State}
    (h : exec (selectedStep st) s = .next t) : t.enc.mem = s.enc.mem := by
  have hsel : pullsNothing (selectedStep s.enc.state) = true := by rw [selectedStep_of_next h, hst]
  rw [exec_step h]
  apply onEncoder_mem_eq
  intro e ports hok
  obtain ⟨p, hp, hres⟩ := producing_eq_ok hok
  cases hres
  exact encoderStep_mem_of_pullsNothing hsel hp

/-- Settles O58: the memory itself stays, so every byte of it does. -/
theorem memoryIsUntouchedByWhatConsumesNothing : Obligations.MemoryIsUntouchedByWhatConsumesNothing := by
  intro i s t hi h k
  have hmem : t.enc.mem = s.enc.mem := by
    rcases hi with hdec | rfl | rfl | rfl | rfl | rfl | rfl
    · rw [exec_decoder hdec h, onDecoder_enc]
    · rw [exec_encoder rfl h]
      exact onEncoder_mem_eq fun e p (hok : cursorPeek s.enc = .ok (e, p)) => by cases hok; rfl
    · rw [exec_encoder rfl h]
      exact onEncoder_mem_eq fun e p (hok : encAbort s.enc = .ok (e, p)) => by cases hok; rfl
    · exact exec_mem_of_pullsNothing (st := .zfb) rfl h
    · exact exec_mem_of_pullsNothing (st := .nzc 0) rfl h
    · exact exec_mem_of_pullsNothing (st := .fz) rfl h
    · exact exec_mem_of_pullsNothing (st := .fin) rfl h
  rw [hmem]

/-! ## Consuming (R33, R61, R73) composes -/

theorem consumes_zero {m : Memory} (hwf : m.wf = true) : consumes m 0 m 0 := ⟨rfl, hwf, rfl, Nat.zero_le _⟩

theorem consumes_trans {m m' m'' : Memory} {a b j k : Nat} (h : consumes m a m' j) (h' : consumes m' b m'' k) :
    consumes m (a + b) m'' (j + k) := by
  obtain ⟨hrest, -, hchain, hle⟩ := h
  obtain ⟨hrest', hwf', hchain', hle'⟩ := h'
  rw [hchain, List.length_drop] at hle'
  exact ⟨by rw [hrest', hrest, List.drop_drop], hwf', by rw [hchain', hchain, List.drop_drop], by omega⟩

/-- The byte `k` ahead, after `n` bytes were consumed, is the byte `n + k` ahead of before. -/
theorem byteAt_of_consumes {m m' : Memory} {n j : Nat} (h : consumes m n m' j) (k : Nat) :
    m'.byteAt k = m.byteAt (n + k) := by
  rw [Memory.byteAt, Memory.byteAt, h.1, List.getElem?_drop]

theorem pull1_consumes {m m' : Memory} (hwf : m.wf = true) {b : Byte} {k : Nat} (h : m.pull1 = some (b, m', k)) :
    consumes m 1 m' k := by
  obtain ⟨hrest, hwf', hchain, hle⟩ := pull1_spec hwf h
  exact ⟨by rw [hrest]; rfl, hwf', hchain, hle⟩

theorem pull_consumes {n : Nat} {m m' : Memory} (hwf : m.wf = true) {bs : List Byte} {k : Nat}
    (h : m.pull n = some (bs, m', k)) : consumes m n m' k := by
  unfold Memory.pull at h
  split at h
  · cases h
  · next hn =>
    obtain ⟨m₁, k₁, h₁, hrest, hwf', hchain, hle⟩ := pullMany_of_rest n hwf (Nat.not_lt.mp hn)
    rw [h₁] at h
    cases h
    exact ⟨hrest, hwf', hchain, hle⟩

/-- START consumes nothing of the chain handed over, from wherever its empty heads go back (R175). -/
theorem load_consumes (chain : Chain) :
    consumes { chain := chain, off := 0 } 0 (Memory.load chain).1 (Memory.load chain).2 :=
  ⟨settle_rest chain 0, load_wf chain, load_chain chain, settle_count_le chain 0⟩

/-- Giving everything back consumes all bytes and all segments (R188). -/
theorem consumes_all (m : Memory) : consumes m m.rest.length Memory.empty m.chain.length :=
  ⟨by simp, empty_wf, by simp [Memory.empty], Nat.le_refl _⟩

/-! ## What an encoder operation takes from the chain, and the `release` events it gives for it -/

/-- From encoder `e` to `e'` the memory was consumed by `n` bytes, and `rel` are the events of the segments that went back,
counted on from those released before (R73). -/
def drains (n : Nat) (e e' : Encoder) (rel : List Nat) : Prop :=
  ∃ k, consumes e.mem n e'.mem k ∧ e'.released = e.released + k ∧ rel = List.range' e.released k

theorem drains_wf {n : Nat} {e e' : Encoder} {rel : List Nat} (h : drains n e e' rel) : e'.mem.wf = true := by
  obtain ⟨k, ⟨-, hwf, -⟩, -⟩ := h
  exact hwf

/-- An encoder whose memory and count of released segments stay drains nothing. -/
theorem drains_zero {e e' : Encoder} (hwf : e.mem.wf = true) (hmem : e'.mem = e.mem) (hrel : e'.released = e.released) :
    drains 0 e e' [] :=
  ⟨0, by rw [hmem]; exact consumes_zero hwf, hrel, rfl⟩

theorem drains_trans {a b : Nat} {e e' e'' : Encoder} {rel rel' : List Nat} (h : drains a e e' rel)
    (h' : drains b e' e'' rel') : drains (a + b) e e'' (rel ++ rel') := by
  obtain ⟨j, hc, hr, rfl⟩ := h
  obtain ⟨k, hc', hr', rfl⟩ := h'
  exact ⟨j + k, consumes_trans hc hc', by rw [hr', hr, Nat.add_assoc], by rw [hr, List.range'_append_1]⟩

theorem withMemory_drains {n k : Nat} {e : Encoder} {m : Memory} (h : consumes e.mem n m k) :
    drains n e (e.withMemory m k) (e.releases k) := ⟨k, h, rfl, rfl⟩

/-- A control transfer drains nothing more. -/
theorem goto_drains {n : Nat} {e e' : Encoder} {rel : List Nat} (h : drains n e e' rel) (t : EncState) :
    drains n e (e'.goto t) rel := h

theorem encoder_pull1_drains {e e' : Encoder} (hwf : e.mem.wf = true) {b : Byte} {rel : List Nat}
    (h : e.pull1 = .ok (b, e', rel)) : drains 1 e e' rel := by
  unfold Encoder.pull1 at h
  split at h
  · cases h
  · next hp => cases h; exact withMemory_drains (pull1_consumes hwf hp)

theorem nzcode_drains {n : Nat} {e e' : Encoder} {rel : List Nat} (h : drains n e e' rel) (t : Nat) :
    drains n e (nzcode t rel e').enc (nzcode t rel e').rel := by
  unfold nzcode
  split <;> exact h

theorem stepZc_drains {e : Encoder} {nzo : Nat} (hwf : e.mem.wf = true) {p : Production} (h : stepZc nzo e = .ok p) :
    ∃ n, drains n e p.enc p.rel := by
  by_cases hn : nzo = 0
  · subst hn
    cases hp : e.pull1 with
    | error f => simp [stepZc, hp] at h
    | ok r =>
      obtain ⟨b, e', rel⟩ := r
      have hd := encoder_pull1_drains hwf hp
      rw [stepZc_zero hp] at h
      cases h
      refine ⟨1, ?_⟩
      rcases e'.mem.peek with (_ | d) | t
      · exact goto_drains hd _
      · exact goto_drains hd _
      · exact nzcode_drains hd t
  · rw [stepZc_pos hn] at h
    cases h
    exact ⟨0, drains_zero hwf rfl rfl⟩

/-- STEP (R177) from the normal form: a step consumes at the front of the chain only. -/
theorem encoderStep_drains {e : Encoder} (hwf : e.mem.wf = true) {p : Production} (h : encoderStep e = .ok p) :
    ∃ n, drains n e p.enc p.rel := by
  have hstay : drains 0 e e [] := drains_zero hwf rfl rfl
  cases hs : e.state with
  | zfb => rw [encoderStep_zfb hs] at h; cases h; exact ⟨0, hstay⟩
  | zc nzo => rw [encoderStep_zc hs] at h; exact stepZc_drains hwf h
  | nzc t => rw [encoderStep_nzc hs] at h; cases h; exact ⟨0, nzcode_drains hstay t⟩
  | fz => rw [encoderStep_fz hs] at h; cases h; exact ⟨0, hstay⟩
  | fin => rw [encoderStep_fin hs] at h; cases h; exact ⟨0, hstay⟩
  | zd dataLeft post nzo =>
    rw [encoderStep_zd hs] at h
    cases hp : e.pull1 with
    | error f => simp [stepZd, hp] at h
    | ok r =>
      rw [stepZd_ok hp] at h
      cases h
      exact ⟨1, goto_drains (encoder_pull1_drains hwf hp) _⟩
  | nzd tail dataLeft full =>
    rw [encoderStep_nzd hs] at h
    cases hp : e.pull1 with
    | error f => simp [stepNzd, hp] at h
    | ok r =>
      rw [stepNzd_ok hp] at h
      cases h
      exact ⟨1, goto_drains (encoder_pull1_drains hwf hp) _⟩

/-- What holds of a loop that runs no step, and carries over a step in front of the loop, holds of every run of PULL's
loop that completes (R176). -/
theorem pullLoop_induction {P : Encoder → Production → Prop} (hstop : ∀ e, P e { enc := e, bytes := [], rel := [] })
    (hstep : ∀ e p q, encoderStep e = .ok p → P p.enc q →
      P e { enc := q.enc, bytes := p.bytes ++ q.bytes, rel := p.rel ++ q.rel })
    (max : Nat) {e : Encoder} {q : Production} (h : pullLoop max e = .ok q) : P e q := by
  induction max generalizing e q with
  | zero => cases h; exact hstop e
  | succ max ih =>
    by_cases hfin : e.state = .fin
    · rw [pullLoop_fin hfin] at h; cases h; exact hstop e
    · cases hp : encoderStep e with
      | error f => rw [pullLoop_succ_error hfin hp] at h; cases h
      | ok p =>
        rw [pullLoop_succ hfin hp] at h
        cases hq : pullLoop max p.enc with
        | error f => rw [hq] at h; cases h
        | ok r => rw [hq] at h; cases h; exact hstep e p r hp (ih hq)

/-- The loop of PULL: its steps consume one after the other. -/
theorem pullLoop_drains (max : Nat) {e : Encoder} (hwf : e.mem.wf = true) {q : Production}
    (h : pullLoop max e = .ok q) : ∃ n, drains n e q.enc q.rel := by
  refine pullLoop_induction (P := fun e q => e.mem.wf = true → ∃ n, drains n e q.enc q.rel) ?_ ?_ max h hwf
  · exact fun e hwf => ⟨0, drains_zero hwf rfl rfl⟩
  · intro e p q hp ih hwf
    obtain ⟨a, ha⟩ := encoderStep_drains hwf hp
    obtain ⟨b, hb⟩ := ih (drains_wf ha)
    exact ⟨a + b, drains_trans ha hb⟩

/-- The loop of PULL leaves the dead bit (R47). -/
theorem pullLoop_dead (max : Nat) {e : Encoder} {q : Production} (h : pullLoop max e = .ok q) :
    q.enc.dead = e.dead :=
  pullLoop_induction (P := fun e q => q.enc.dead = e.dead) (fun _ => rfl)
    (fun _ _ _ hp ih => ih.trans (encoderStep_keeps hp).2) max h

theorem encPull_drains {max : Nat} {e : Encoder} (hwf : e.mem.wf = true) {q : Production} (h : encPull max e = .ok q) :
    ∃ n, drains n e q.enc q.rel := by
  unfold encPull at h
  split at h
  · cases h
  · split at h
    · exact pullLoop_drains max hwf h
    · cases h
  · exact pullLoop_drains max hwf h

theorem encDispose_drains {e e' : Encoder} (hwf : e.mem.wf = true) {p : Ports} (h : encDispose e = .ok (e', p)) :
    ∃ n, drains n e e' p.rel := by
  unfold encDispose at h
  split at h
  · cases h; exact ⟨_, withMemory_drains (consumes_all e.mem)⟩
  · cases h; exact ⟨0, drains_zero hwf rfl rfl⟩

theorem cursorPull1_drains {e e' : Encoder} (hwf : e.mem.wf = true) {p : Ports} (h : cursorPull1 e = .ok (e', p)) :
    drains 1 e e' p.rel := by
  unfold cursorPull1 at h
  split at h
  · cases h
  · next hp => cases h; exact encoder_pull1_drains hwf hp

theorem cursorPull_drains {n : Nat} {e e' : Encoder} (hwf : e.mem.wf = true) {p : Ports}
    (h : cursorPull n e = .ok (e', p)) : drains n e e' p.rel := by
  unfold cursorPull at h
  split at h
  · cases h
  · next hp => cases h; exact withMemory_drains (pull_consumes hwf hp)

/-- Every encoder operation but START only drains the chain. -/
theorem encoderEffect_drains {i : Instr} (hi : ∀ chain, i ≠ .start chain) {e e' : Encoder} (hwf : e.mem.wf = true)
    {ports : Ports} (h : encoderEffect i e = .ok (e', ports)) : ∃ n, drains n e e' ports.rel := by
  cases i with
  | start chain => exact absurd rfl (hi chain)
  | pull max =>
    obtain ⟨q, hq, hres⟩ := producing_eq_ok h
    cases hres
    exact encPull_drains hwf hq
  | dispose => exact encDispose_drains hwf h
  | cpull1 => exact ⟨1, cursorPull1_drains hwf h⟩
  | cpull n => exact ⟨n, cursorPull_drains hwf h⟩
  | zfb | zc | zd | nzc | nzd | fz | fin =>
    obtain ⟨p, hp, hres⟩ := producing_eq_ok h
    cases hres
    exact encoderStep_drains hwf hp
  | abort | peek | term | zero | runz _ | runf | lit _ | illz | feed _ | reset =>
    cases h; exact ⟨0, drains_zero hwf rfl rfl⟩

/-! ## The signals of each machine -/

/-- No signal of the encoder that a frame or a release is read from. -/
def silentOnEncoder (p : Ports) : Prop := p.encBytes = none ∧ p.rel = []

/-- No signal of the decoder. -/
def silentOnDecoder (p : Ports) : Prop := p.decRes = none ∧ p.decOut = none

theorem feedByte_silentOnEncoder (b : Byte) (d : Decoder) : silentOnEncoder (feedByte b d).2 := by
  unfold feedByte
  split
  · split
    · exact ⟨rfl, rfl⟩
    · split
      · exact ⟨rfl, rfl⟩
      · split <;> exact ⟨rfl, rfl⟩
  · split <;> exact ⟨rfl, rfl⟩
  · exact ⟨rfl, rfl⟩

theorem decoderEffect_silentOnEncoder (i : Instr) (d : Decoder) : silentOnEncoder (decoderEffect i d).2 := by
  cases i with
  | feed b => exact feedByte_silentOnEncoder b d
  | term | zero | runz _ | runf | lit _ | illz =>
    simp only [decoderEffect, unlessFinished]
    split <;> exact ⟨rfl, rfl⟩
  | reset | start _ | pull _ | abort | dispose | peek | cpull1 | cpull _ | zfb | zc | zd | nzc | nzd | fz | fin =>
    exact ⟨rfl, rfl⟩

theorem producing_silentOnDecoder {f : Encoder → Except Fault Production} {e e' : Encoder} {ports : Ports}
    (h : producing f e = .ok (e', ports)) : silentOnDecoder ports := by
  obtain ⟨p, -, hres⟩ := producing_eq_ok h
  cases hres
  exact ⟨rfl, rfl⟩

theorem encoderEffect_silentOnDecoder {i : Instr} {e e' : Encoder} {ports : Ports}
    (h : encoderEffect i e = .ok (e', ports)) : silentOnDecoder ports := by
  cases i with
  | pull _ | zfb | zc | zd | nzc | nzd | fz | fin => exact producing_silentOnDecoder h
  | start _ =>
    simp only [encoderEffect, encStart] at h
    split at h
    · cases h
    · cases h; exact ⟨rfl, rfl⟩
  | dispose =>
    simp only [encoderEffect, encDispose] at h
    split at h <;> cases h <;> exact ⟨rfl, rfl⟩
  | cpull1 =>
    simp only [encoderEffect, cursorPull1] at h
    split at h
    · cases h
    · cases h; exact ⟨rfl, rfl⟩
  | cpull _ =>
    simp only [encoderEffect, cursorPull] at h
    split at h
    · cases h
    · cases h; exact ⟨rfl, rfl⟩
  | abort | peek | term | zero | runz _ | runf | lit _ | illz | feed _ | reset => cases h; exact ⟨rfl, rfl⟩

/-- An encoder operation drives no decoder signal, on a dead encoder and in a fault neither. -/
theorem onEncoder_silentOnDecoder (i : Instr) (s : State) : silentOnDecoder (onEncoder (encoderEffect i) s).ports := by
  rcases onEncoder_cases (encoderEffect i) s with ⟨-, heq⟩ | ⟨-, fault, -, heq⟩ | ⟨-, e, p, hf, heq⟩
  · rw [heq]; exact ⟨rfl, rfl⟩
  · rw [heq]; exact ⟨rfl, rfl⟩
  · rw [heq]; exact encoderEffect_silentOnDecoder hf

/-! ## Every instruction but START only drains the chain -/

/-- The invariant step: whatever an instruction but START does, it takes bytes at the front of the chain, and its
`release` events are the next segments in chain order. -/
theorem exec_drains {i : Instr} (hi : ∀ chain, i ≠ .start chain) {s t : State} (hwf : s.enc.mem.wf = true)
    (h : exec i s = .next t) : ∃ n, drains n s.enc t.enc t.ports.rel := by
  cases ha : actsOnDecoder i with
  | true =>
    obtain ⟨-, hrel⟩ := decoderEffect_silentOnEncoder i s.dec
    rw [exec_decoder ha h, onDecoder_enc, onDecoder_ports, hrel]
    exact ⟨0, drains_zero hwf rfl rfl⟩
  | false =>
    rw [exec_encoder ha h]
    rcases onEncoder_cases (encoderEffect i) s with ⟨-, heq⟩ | ⟨-, fault, -, heq⟩ | ⟨-, e, p, hf, heq⟩
    · rw [heq]; exact ⟨0, drains_zero hwf rfl rfl⟩
    · rw [heq]; exact ⟨0, drains_zero hwf rfl rfl⟩
    · rw [heq]; exact encoderEffect_drains hi hwf hf

/-- Settles O59: draining reads the old bytes on from where it stopped, in normal form. -/
theorem noInstructionWritesTheChain : Obligations.NoInstructionWritesTheChain := by
  intro i s t hwf hi h
  obtain ⟨n, hd⟩ := exec_drains hi hwf h
  have hwf' := drains_wf hd
  obtain ⟨k, hc, -⟩ := hd
  exact ⟨hwf', n, byteAt_of_consumes hc⟩

/-! ## Sessions -/

/-- A session that runs: its first operation answers a next state, from which the rest runs. -/
theorem issue_cons_some {i : Instr} {rest : List Instr} {s t : State} {ps : List Ports}
    (h : issue (i :: rest) s = some (ps, t)) :
    ∃ s' qs, exec i s = .next s' ∧ issue rest s' = some (qs, t) ∧ ps = s'.ports :: qs := by
  cases he : exec i s with
  | next s' =>
    rw [issue_cons he, Option.map_eq_some_iff] at h
    obtain ⟨⟨qs, u⟩, hr, heq⟩ := h
    cases heq
    exact ⟨s', qs, rfl, hr, rfl⟩
  | fault f => simp [issue, he] at h
  | refused r => simp [issue, he] at h

theorem issue_cons_of_next {i : Instr} {rest : List Instr} {s s' t : State} {qs : List Ports}
    (he : exec i s = .next s') (hr : issue rest s' = some (qs, t)) :
    issue (i :: rest) s = some (s'.ports :: qs, t) := by rw [issue_cons he, hr]; rfl

/-- A session without START drains the chain, operation after operation. -/
theorem issue_drains {ops : List Instr} (hops : ∀ i ∈ ops, ∀ chain, i ≠ .start chain) {s t : State} {ps : List Ports}
    (hwf : s.enc.mem.wf = true) (h : issue ops s = some (ps, t)) : ∃ n, drains n s.enc t.enc (releasesOf ps) := by
  induction ops generalizing s ps with
  | nil => cases h; exact ⟨0, drains_zero hwf rfl rfl⟩
  | cons i rest ih =>
    obtain ⟨s', qs, he, hr, rfl⟩ := issue_cons_some h
    obtain ⟨a, ha⟩ := exec_drains (hops i List.mem_cons_self) hwf he
    obtain ⟨b, hb⟩ := ih (fun j hj => hops j (List.mem_cons_of_mem _ hj)) (drains_wf ha) hr
    exact ⟨a + b, drains_trans ha hb⟩

/-! ## A frame's session, from START to DISPOSE (R71) -/

/-- A live encoder with a chain of its own, as its state expects it. -/
def liveOwned (e : Encoder) : Prop := e.dead = false ∧ e.life = .owned ∧ ownedOk e

/-- The encoder at the handover of a chain: nothing of it consumed, nothing released. -/
def handedOver (chain : Chain) (e : Encoder) : Encoder := { e with mem := { chain := chain, off := 0 }, released := 0 }

/-- START on a live encoder that owns nothing (R175). -/
theorem exec_start_liveOwned (chain : Chain) {s : State} (hdead : s.enc.dead = false) (hlife : s.enc.life ≠ .owned) :
    ∃ t, exec (.start chain) s = .next t ∧ liveOwned t.enc ∧ drains 0 (handedOver chain s.enc) t.enc t.ports.rel := by
  have hrun := onEncoder_ok hdead (f := encStart chain) (by simp only [encStart, if_neg hlife]; rfl)
  refine ⟨_, congrArg Host.Outcome.next hrun, ⟨hdead, rfl, load_wf chain, stateAgrees_firstState _⟩, ?_⟩
  exact ⟨_, load_consumes chain, (Nat.zero_add _).symm, rfl⟩

theorem exec_pull_liveOwned (max : Nat) {s : State} (h : liveOwned s.enc) :
    ∃ t, exec (.pull max) s = .next t ∧ liveOwned t.enc := by
  obtain ⟨hdead, hlife, hok⟩ := h
  obtain ⟨q, hq, hqok, hqlife⟩ := pullLoop_ownedOk max hok
  have hrun := onEncoder_ok hdead (producing_ok (f := encPull max) (p := q) (by simp only [encPull, hlife, hq]))
  exact ⟨_, congrArg Host.Outcome.next hrun, (pullLoop_dead max hq).trans hdead, hqlife.trans hlife, hqok⟩

theorem exec_abort_liveOwned {s : State} (h : liveOwned s.enc) :
    ∃ t, exec .abort s = .next t ∧ liveOwned t.enc := by
  obtain ⟨hdead, hlife, hwf, -⟩ := h
  exact ⟨_, congrArg Host.Outcome.next (onEncoder_ok hdead (f := encAbort) rfl), hdead, hlife, hwf, trivial⟩

/-- DISPOSE of an owned chain (R188). -/
theorem exec_dispose_liveOwned {s : State} (h : liveOwned s.enc) :
    ∃ t, exec .dispose s = .next t ∧ t.enc.life = .disposed ∧ t.enc.mem = Memory.empty := by
  obtain ⟨hdead, hlife, -⟩ := h
  have hrun := onEncoder_ok hdead (f := encDispose) (by simp only [encDispose, if_pos hlife]; rfl)
  exact ⟨_, congrArg Host.Outcome.next hrun, rfl, rfl⟩

/-- Between START and DISPOSE: PULLs and ABORTs complete and leave the chain owned. -/
theorem issue_liveOwned {ops : List Instr} (hops : ∀ i ∈ ops, (∃ max, i = .pull max) ∨ i = .abort) {s : State}
    (h : liveOwned s.enc) : ∃ ps t, issue ops s = some (ps, t) ∧ liveOwned t.enc := by
  induction ops generalizing s with
  | nil => exact ⟨_, _, issue_nil s, h⟩
  | cons i rest ih =>
    have hi : ∃ s', exec i s = .next s' ∧ liveOwned s'.enc := by
      rcases hops i List.mem_cons_self with ⟨max, rfl⟩ | rfl
      · exact exec_pull_liveOwned max h
      · exact exec_abort_liveOwned h
    obtain ⟨s', he, hs'⟩ := hi
    obtain ⟨ps, t, hr, ht⟩ := ih (fun j hj => hops j (List.mem_cons_of_mem _ hj)) hs'
    exact ⟨_, t, issue_cons_of_next he hr, ht⟩

/-- Once nothing of a chain handed over is held, the events are all of its segments, each once, in order (R71). -/
theorem releases_of_drained {chain : Chain} {n : Nat} {e e' : Encoder} {rel : List Nat}
    (h : drains n (handedOver chain e) e' rel) (hempty : e'.mem = Memory.empty) : rel = List.range chain.length := by
  obtain ⟨k, ⟨-, -, hchain, hle⟩, -, rfl⟩ := h
  have hk : chain.length ≤ k := by
    rw [hempty] at hchain
    exact List.drop_eq_nil_iff.mp hchain.symm
  rw [Nat.le_antisymm hle hk, List.range_eq_range']
  rfl

/-- A session from START to DISPOSE, with PULLs and ABORTs between (R71, R188). -/
theorem issue_session {ops : List Instr} (hops : ∀ i ∈ ops, (∃ max, i = .pull max) ∨ i = .abort) (chain : Chain)
    {s : State} (hdead : s.enc.dead = false) (hlife : s.enc.life ≠ .owned) :
    ∃ ps t, issue (.start chain :: (ops ++ [.dispose])) s = some (ps, t) ∧
      releasesOf ps = List.range chain.length ∧ t.enc.life = .disposed ∧ t.enc.mem = Memory.empty := by
  obtain ⟨s₁, hstart, hlive₁, hd₁⟩ := exec_start_liveOwned chain hdead hlife
  obtain ⟨qs, s₂, hmid, hlive₂⟩ := issue_liveOwned hops hlive₁
  obtain ⟨t, hdisp, htlife, htmem⟩ := exec_dispose_liveOwned hlive₂
  have hrest := issue_append_some hmid (issue_cons_of_next hdisp (issue_nil t))
  have hstart' : ∀ i ∈ ops ++ [.dispose], ∀ c, i ≠ .start c := by
    intro i hi c
    rcases List.mem_append.mp hi with hm | hm
    · rcases hops i hm with ⟨max, rfl⟩ | rfl <;> simp
    · rw [List.mem_singleton.mp hm]; simp
  obtain ⟨n, hd⟩ := issue_drains hstart' (drains_wf hd₁) hrest
  exact ⟨_, t, issue_cons_of_next hstart hrest, releases_of_drained (drains_trans hd₁ hd) htmem, htlife, htmem⟩

/-- Settles O49: each operation releases the next segments of the chain handed over, and DISPOSE the last of them; the
invariant that carries it is `drains`, from the handover on. -/
theorem everySegmentComesBackExactlyOnce : Obligations.EverySegmentComesBackExactlyOnce := by
  intro s chain ms aborted hdead hlife
  have hpulls : ∀ i ∈ ms.map Instr.pull, (∃ max, i = .pull max) ∨ i = .abort := by
    intro i hi
    obtain ⟨max, -, rfl⟩ := List.mem_map.mp hi
    exact .inl ⟨max, rfl⟩
  cases aborted with
  | false => exact issue_session hpulls chain hdead hlife
  | true =>
    have hops : ∀ i ∈ ms.map Instr.pull ++ [.abort], (∃ max, i = .pull max) ∨ i = .abort := by
      intro i hi
      rcases List.mem_append.mp hi with hm | hm
      · exact hpulls i hm
      · exact .inr (List.mem_singleton.mp hm)
    have h := issue_session hops chain hdead hlife
    rw [List.append_assoc] at h
    exact h

/-! ## Interleaving (R76) -/

/-- The registers `regs` with the operations `own` are a machine by itself: its operations read and answer from those
registers alone, and every other host operation leaves them and gives a response that is `silent` on its signals. -/
def isolated {α : Type} (own : Instr → Bool) (regs : State → α) (silent : Ports → Prop) : Prop :=
  ∀ (i : Instr) (s t : State), hostOperation i = true → exec i s = .next t →
    (own i = true → ∀ s', regs s' = regs s →
      ∃ t', exec i s' = .next t' ∧ regs t' = regs t ∧ t'.ports = t.ports) ∧
    (own i = false → regs t = regs s ∧ silent t.ports)

/-- A host operation always answers a next state. -/
theorem exec_hostOperation_next {i : Instr} (hi : hostOperation i = true) (s : State) : ∃ t, exec i s = .next t := by
  rcases exec_hostOperation_cases hi s with ⟨f, -, h⟩ | ⟨f, -, h⟩ <;> exact ⟨_, h⟩

/-- On the host's operations `actsOnDecoder` tells the two machines apart (R100). -/
theorem actsOnDecoder_of_hostOperation {i : Instr} (h : hostOperation i = true) :
    actsOnDecoder i = decoderOperation i ∧ encoderOperation i = !decoderOperation i := by
  cases i with
  | feed _ | reset | start _ | pull _ | abort | dispose => exact ⟨rfl, rfl⟩
  | term | zero | runz _ | runf | lit _ | illz | peek | cpull1 | cpull _ | zfb | zc | zd | nzc | nzd | fz | fin =>
    cases h

theorem decoder_isolated : isolated decoderOperation State.dec silentOnDecoder := by
  intro i s t hi h
  obtain ⟨hacts, -⟩ := actsOnDecoder_of_hostOperation hi
  constructor
  · intro hown s' hregs
    obtain ⟨t', h'⟩ := exec_hostOperation_next hi s'
    refine ⟨t', h', ?_⟩
    rw [exec_decoder (hacts.trans hown) h, exec_decoder (hacts.trans hown) h']
    simp only [onDecoder_dec, onDecoder_ports, hregs, and_self]
  · intro hother
    rw [exec_encoder (hacts.trans hother) h]
    exact ⟨onEncoder_dec _ s, onEncoder_silentOnDecoder i s⟩

/-- An encoder operation answers from the encoder's registers alone. -/
theorem onEncoder_of_enc_eq (f : Encoder → Except Fault (Encoder × Ports)) {s s' : State} (h : s'.enc = s.enc) :
    (onEncoder f s').enc = (onEncoder f s).enc ∧ (onEncoder f s').ports = (onEncoder f s).ports := by
  simp only [onEncoder, takeFault, h]
  split
  · exact ⟨rfl, rfl⟩
  · split <;> exact ⟨rfl, rfl⟩

theorem encoder_isolated : isolated encoderOperation State.enc silentOnEncoder := by
  intro i s t hi h
  obtain ⟨hacts, henc⟩ := actsOnDecoder_of_hostOperation hi
  constructor
  · intro hown s' hregs
    have hdec : actsOnDecoder i = false := by rw [hacts]; simpa [hown] using henc
    obtain ⟨t', h'⟩ := exec_hostOperation_next hi s'
    refine ⟨t', h', ?_⟩
    rw [exec_encoder hdec h, exec_encoder hdec h']
    exact onEncoder_of_enc_eq _ hregs
  · intro hother
    have hdec : actsOnDecoder i = true := by rw [hacts]; simpa [hother] using henc
    rw [exec_decoder hdec h]
    exact ⟨rfl, decoderEffect_silentOnEncoder i s.dec⟩

/-- Two runs gave the same signals: whatever is collected from them that silent responses do not add to is the same. -/
def sameSignals (silent : Ports → Prop) (qs ps : List Ports) : Prop :=
  ∀ (β : Type) (view : Ports → List β), (∀ p, silent p → view p = []) → qs.flatMap view = ps.flatMap view

/-- A machine by itself, run on its own operations only, from any state with its registers, ends with the registers and
the signals it has in the interleaved run. -/
theorem issue_filter_own {α : Type} {own : Instr → Bool} {regs : State → α} {silent : Ports → Prop}
    (hiso : isolated own regs silent) {ops : List Instr} (hops : ∀ i ∈ ops, hostOperation i = true) {s s' t : State}
    {ps : List Ports} (hregs : regs s' = regs s) (h : issue ops s = some (ps, t)) :
    ∃ qs u, issue (ops.filter own) s' = some (qs, u) ∧ regs u = regs t ∧ sameSignals silent qs ps := by
  induction ops generalizing s s' ps with
  | nil => cases h; exact ⟨[], s', rfl, hregs, fun _ _ _ => rfl⟩
  | cons i rest ih =>
    obtain ⟨s₁, ps', he, hr, rfl⟩ := issue_cons_some h
    obtain ⟨hown, hother⟩ := hiso i s s₁ (hops i List.mem_cons_self) he
    have hrest : ∀ j ∈ rest, hostOperation j = true := fun j hj => hops j (List.mem_cons_of_mem _ hj)
    cases hi : own i with
    | true =>
      obtain ⟨s₁', he', hregs', hports⟩ := hown hi s' hregs
      obtain ⟨qs, u, hq, hu, hsame⟩ := ih hrest hregs' hr
      refine ⟨s₁'.ports :: qs, u, ?_, hu, fun β view hview => ?_⟩
      · rw [List.filter_cons_of_pos hi]
        exact issue_cons_of_next he' hq
      · rw [List.flatMap_cons, List.flatMap_cons, hports, hsame β view hview]
    | false =>
      obtain ⟨hkept, hsilent⟩ := hother hi
      obtain ⟨qs, u, hq, hu, hsame⟩ := ih hrest (hregs.trans hkept.symm) hr
      refine ⟨qs, u, ?_, hu, fun β view hview => ?_⟩
      · rw [List.filter_cons_of_neg (by simp [hi])]
        exact hq
      · rw [List.flatMap_cons, hview _ hsilent, List.nil_append, hsame β view hview]

/-- The results FEED gave are the `dec_res` signals that were driven. -/
theorem resultsOf_reduceOption (ps : List Ports) :
    (resultsOf ps).reduceOption = ps.flatMap (fun p => p.decRes.toList) := by
  induction ps with
  | nil => rfl
  | cons p ps ih =>
    rw [resultsOf_cons, List.flatMap_cons, ← ih]
    cases hr : p.decRes with
    | none => rw [List.reduceOption_cons_of_none]; rfl
    | some r => rw [List.reduceOption_cons_of_some]; rfl

/-- Settles O60: each machine is isolated from the other's operations, so by induction over the sequence dropping those
changes nothing of it. -/
theorem interleavingDoesNotShow : Obligations.InterleavingDoesNotShow := by
  intro ops s t ps hops h
  obtain ⟨qs, u, hq, hu, hsame⟩ := issue_filter_own decoder_isolated hops rfl h
  obtain ⟨qs', u', hq', hu', hsame'⟩ := issue_filter_own encoder_isolated hops rfl h
  refine ⟨⟨qs, u, hq, hu, hsame _ _ ?_, ?_⟩, ⟨qs', u', hq', hu', hsame' _ _ ?_, hsame' _ _ ?_⟩⟩
  · exact fun p hp => by simp [hp.2]
  · rw [resultsOf_reduceOption, resultsOf_reduceOption]
    exact hsame _ _ fun p hp => by simp [hp.1]
  · exact fun p hp => by simp [hp.1]
  · exact fun p hp => hp.2

end Sys2Proof.Safety
end

section
/-! # The reference transform chunk by chunk (R121 to R126): every payload is cut into full chunks, chunks ended by a
zero and a last chunk, and what holds of `Body` and `Dec` follows by induction over the cut -/

namespace Sys2Proof.Safety

open Sys2Proof.Machine

/-! ## The code byte of a chunk (R92, R133) -/

theorem chunkCode_eq_codeByte {n : Nat} (h : n ≤ 254) : chunkCode n = codeByte n := by
  rcases Nat.lt_or_eq_of_le h with hlt | rfl
  · exact chunkCode_short hlt
  · rfl

theorem dataCount_chunkCode {n : Nat} (h : n ≤ 254) : dataCount (chunkCode n) = n := by
  rw [chunkCode_eq_codeByte h, dataCount_codeByte h]

/-- A chunk below the cap is followed by a zero, at the end of the payload by one that is dropped (R92). -/
theorem zeroOwedBy_chunkCode_short {n : Nat} (h : n < 254) : zeroOwedBy (chunkCode n) = true := by
  rw [chunkCode_eq_codeByte (Nat.le_of_lt h)]
  exact decide_eq_true (codeByte_ne_full (Nat.le_of_lt_succ h))

/-! ## The cut into chunks -/

/-- What holds of a last chunk, and carries over a full chunk and over a chunk with its zero in front, holds of every
payload: the three cases of R121. -/
theorem chunk_induction {P : List Byte → Prop}
    (hfull : ∀ u y, 0x00#8 ∉ u → u.length = 254 → P y → P (u ++ y))
    (hlast : ∀ u, 0x00#8 ∉ u → u.length < 254 → P u)
    (hzero : ∀ u y, 0x00#8 ∉ u → u.length < 254 → P y → P (u ++ 0x00#8 :: y)) (x : List Byte) : P x := by
  induction hn : x.length using Nat.strong_induction_on generalizing x with
  | _ n ih =>
    have hcap : ∀ u y, x = u ++ y → 0x00#8 ∉ u → 254 ≤ u.length → P x := by
      rintro u y rfl hu hlen
      rw [← List.take_append_drop 254 u, List.append_assoc]
      refine hfull _ _ (fun h => hu (List.mem_of_mem_take h)) (List.length_take_of_le hlen) (ih _ ?_ _ rfl)
      rw [← hn, List.length_append, List.length_append, List.length_drop]
      omega
    by_cases hx : 0x00#8 ∈ x
    · obtain ⟨u, y, rfl, hu⟩ := List.eq_append_cons_of_mem hx
      rcases Nat.lt_or_ge u.length 254 with hlt | hge
      · exact hzero u y hu hlt (ih _ (by rw [← hn, List.length_append, List.length_cons]; omega) y rfl)
      · exact hcap u _ rfl hu hge
    · rcases Nat.lt_or_ge x.length 254 with hlt | hge
      · exact hlast x hx hlt
      · exact hcap x [] (List.append_nil x).symm hx hge

theorem zeroFreeLength_of_notMem {u : List Byte} (h : 0x00#8 ∉ u) : zeroFreeLength u = u.length := by
  simpa using zeroFreeLength_append h []

theorem body_fullChunk {u : List Byte} (hu : 0x00#8 ∉ u) (hlen : u.length = 254) (y : List Byte) :
    body (u ++ y) = chunkCode u.length :: (u ++ body y) := by
  rw [body_full (by rw [zeroFreeLength_append hu]; omega), List.take_left' hlen, List.drop_left' hlen, hlen]
  rfl

theorem body_lastChunk {u : List Byte} (hu : 0x00#8 ∉ u) (hlen : u.length < 254) :
    body u = chunkCode u.length :: u := by
  have hz := zeroFreeLength_of_notMem hu
  rw [body_last (by omega) hz, chunkCode_short hlen]

theorem body_zeroChunk {u : List Byte} (hu : 0x00#8 ∉ u) (hlen : u.length < 254) (y : List Byte) :
    body (u ++ 0x00#8 :: y) = chunkCode u.length :: (u ++ body y) := by
  have hz : zeroFreeLength (u ++ 0x00#8 :: y) = u.length := by simp [zeroFreeLength_append hu]
  rw [body_zero (by omega) (by simp [hz]), hz, chunkCode_short hlen, List.take_left, ← List.drop_drop, List.drop_left]
  rfl

/-- The body holds no zero (R125): a code byte is none, and the zeros of the payload stay out. -/
theorem zero_notMem_body (x : List Byte) : 0x00#8 ∉ body x := by
  have hcode := fun n => (chunkCode_ne_zero n).symm
  induction x using chunk_induction with
  | hfull u y hu hlen ih => simp [body_fullChunk hu hlen, hcode, hu, ih]
  | hlast u hu hlen => simp [body_lastChunk hu hlen, hcode, hu]
  | hzero u y hu hlen ih => simp [body_zeroChunk hu hlen, hcode, hu, ih]

/-! ## The length of a frame (R122, R126) -/

theorem fullChunks_of_notMem {x : List Byte} (h : 0x00#8 ∉ x) : fullChunks x = x.length / 254 := by
  simp [fullChunks, List.splitOn_eq_singleton h]

theorem fullChunks_append_zero {u : List Byte} (h : 0x00#8 ∉ u) (y : List Byte) :
    fullChunks (u ++ 0x00#8 :: y) = u.length / 254 + fullChunks y := by
  simp [fullChunks, List.splitOn_append_cons_self_of_not_mem h]

/-- A full chunk in front makes the first run longer by 254 bytes and so `F` greater by 1. -/
theorem fullChunks_fullChunk {u : List Byte} (hu : 0x00#8 ∉ u) (hlen : u.length = 254) (y : List Byte) :
    fullChunks (u ++ y) = fullChunks y + 1 := by
  by_cases hy : 0x00#8 ∈ y
  · obtain ⟨v, w, rfl, hv⟩ := List.eq_append_cons_of_mem hy
    rw [← List.append_assoc, fullChunks_append_zero (by simp [hu, hv]), fullChunks_append_zero hv, List.length_append]
    omega
  · rw [fullChunks_of_notMem (by simp [hu, hy]), fullChunks_of_notMem hy, List.length_append]
    omega

/-- The length of the body (R122): a code for each zero and for each full chunk, and one more. -/
theorem body_length (x : List Byte) : (body x).length = x.length + 1 + fullChunks x := by
  induction x using chunk_induction with
  | hfull u y hu hlen ih =>
    simp only [body_fullChunk hu hlen, fullChunks_fullChunk hu hlen, List.length_cons, List.length_append, ih]
    omega
  | hlast u hu hlen =>
    rw [body_lastChunk hu hlen, fullChunks_of_notMem hu, Nat.div_eq_of_lt hlen, List.length_cons]
  | hzero u y hu hlen ih =>
    simp only [body_zeroChunk hu hlen, fullChunks_append_zero hu, Nat.div_eq_of_lt hlen, List.length_cons,
      List.length_append, ih]
    omega

/-- The full chunks and the zeros are disjoint parts of the payload. -/
theorem fullChunks_bound (x : List Byte) : 254 * fullChunks x + x.count 0x00#8 ≤ x.length := by
  induction x using chunk_induction with
  | hfull u y hu hlen ih =>
    rw [fullChunks_fullChunk hu hlen, List.count_append, List.count_eq_zero_of_not_mem hu, List.length_append]
    omega
  | hlast u hu hlen =>
    rw [fullChunks_of_notMem hu, List.count_eq_zero_of_not_mem hu]
    omega
  | hzero u y hu hlen ih =>
    rw [fullChunks_append_zero hu, List.count_append, List.count_eq_zero_of_not_mem hu, List.count_cons_self,
      List.length_append, List.length_cons]
    omega

/-- Settles O52: the length by induction over the chunks; the bound, and when it is met, because full chunks and zeros
share no byte of the payload. -/
theorem frameLengthAndItsBound : Obligations.FrameLengthAndItsBound := by
  intro x
  have hlen : (refEnc x).length = x.length + 2 + fullChunks x := by
    rw [refEnc, List.length_append, body_length, List.length_singleton]
    omega
  have hbound := fullChunks_bound x
  refine ⟨hlen, by omega, fun hmet => ?_, fun ⟨hx, hmod⟩ => ?_⟩
  · exact ⟨List.count_eq_zero.mp (by omega), by omega⟩
  · rw [hlen, fullChunks_of_notMem hx]
    omega

/-! ## Decoding a frame (R123, R124) -/

/-- The zero that is owed before the next chunk's data, if one is (R123). -/
def owedZero (owed : Bool) : List Byte := if owed then [0x00#8] else []

/-- `DecB` of R123, on all the fuel it needs. -/
def decFrom (owed : Bool) (f : List Byte) : DecOutcome := decOn f.length owed f

/-- A whole chunk delivers the owed zero and its data, and its code says whether a zero is owed next. -/
theorem decFrom_chunk {u : List Byte} (hu : 0x00#8 ∉ u) (hlen : u.length ≤ 254) (owed : Bool) (f : List Byte) :
    decFrom owed (chunkCode u.length :: (u ++ f)) =
      (decFrom (zeroOwedBy (chunkCode u.length)) f).prepend (owedZero owed ++ u) := by
  have hcount : (chunkCode u.length).toNat - 1 = u.length := dataCount_chunkCode hlen
  have hfuel := decOn_fuel (zeroOwedBy (chunkCode u.length)) (a := (u ++ f).length) (b := f.length) (f := f) (by simp)
    (Nat.le_refl _)
  rw [decFrom, List.length_cons, decOn]
  simp only [if_neg (chunkCode_ne_zero _), hcount, List.take_left, List.drop_left, zeroFreeLength_of_notMem hu,
    Nat.lt_irrefl, if_false, List.length_append, Nat.not_lt.mpr (Nat.le_add_right _ _)]
  rw [List.length_append] at hfuel
  exact congrArg _ hfuel

/-- A body delivers its payload and, its last chunk being below the cap, always leaves a zero owed. -/
theorem decFrom_body (owed : Bool) (x f : List Byte) :
    decFrom owed (body x ++ f) = (decFrom true f).prepend (owedZero owed ++ x) := by
  induction x using chunk_induction generalizing owed with
  | hfull u y hu hlen ih =>
    rw [body_fullChunk hu hlen, List.cons_append, List.append_assoc, decFrom_chunk hu hlen.le, ih, ← prepend_append,
      hlen]
    simp [zeroOwedBy, chunkCode, owedZero]
  | hlast u hu hlen =>
    rw [body_lastChunk hu hlen, List.cons_append, decFrom_chunk hu hlen.le, zeroOwedBy_chunkCode_short hlen]
  | hzero u y hu hlen ih =>
    rw [body_zeroChunk hu hlen, List.cons_append, List.append_assoc, decFrom_chunk hu hlen.le, ih, ← prepend_append,
      zeroOwedBy_chunkCode_short hlen]
    simp [owedZero]

/-- `Dec(Enc(x)) = ok(x)` (R124). -/
theorem refDec_refEnc (x : List Byte) : refDec (refEnc x) = .ok x :=
  (decFrom_body false x [0x00#8]).trans (by simp [owedZero, decFrom, decOn, DecOutcome.prepend])

end Sys2Proof.Safety
end

section
/-! # The encoder's output (R127, R132, R192): the frame that is still to come loses exactly the bytes emitted -/

namespace Sys2Proof.Safety

open Sys2Proof.Machine

/-! ## `Enc` by what the probe sees (R121, R160) -/

theorem refEnc_full {x : List Byte} (h : 254 ≤ zeroFreeLength x) :
    refEnc x = 0xFF#8 :: (x.take 254 ++ refEnc (x.drop 254)) := by
  rw [refEnc, refEnc, body_full h, List.cons_append, List.append_assoc]

theorem refEnc_last {x : List Byte} (h : zeroFreeLength x < 254) (he : zeroFreeLength x = x.length) :
    refEnc x = chunkCode x.length :: (x ++ [0x00#8]) := by
  rw [refEnc, body_last h he, chunkCode_short (he ▸ h), List.cons_append]

theorem refEnc_zero {x : List Byte} (h : zeroFreeLength x < 254) (he : zeroFreeLength x ≠ x.length) :
    refEnc x = chunkCode (zeroFreeLength x) ::
      (x.take (zeroFreeLength x) ++ refEnc ((x.drop (zeroFreeLength x)).drop 1)) := by
  rw [refEnc, refEnc, body_zero h he, chunkCode_short h, List.cons_append, List.append_assoc, List.drop_drop]

theorem zeroFreeLength_of_probe_zero {r : List Byte} {d : Nat} (h : probe r = .zero d) :
    zeroFreeLength r = d ∧ d ≠ r.length := by
  obtain ⟨u, v, rfl, rfl, hu⟩ := (probe_zero_iff r d).mp h
  simp [zeroFreeLength_append hu]

theorem zeroFreeLength_of_probe_noZero {r : List Byte} {t : Nat} (h : probe r = .noZero t) :
    zeroFreeLength r = t ∧ t = r.length := by
  obtain ⟨rfl, hr⟩ := (probe_noZero_iff r t).mp h
  exact ⟨zeroFreeLength_of_notMem hr, rfl⟩

/-! ## The frame still to come -/

/-- The frame still to come where a chunk of the zeros path begins, with the zero `nzo` bytes ahead: on the zero its own
chunk's code is out (`ZC`), or is not, after a full chunk that ended just there (`ZFB`; R28, R180). -/
def zerosFrame (post : Post) (nzo : Nat) (r : List Byte) : List Byte :=
  if post = .zc ∧ nzo = 0 then refEnc (r.drop 1) else refEnc r

/-- The frame still to come where a chunk of the zero-free tail has ended: after a full one there is another (R184). -/
def tailFrame (full : Bool) (r : List Byte) : List Byte := if full then refEnc r else [Config.term]

/-- The frame still to come in each state of the encoder, `r` being the payload not yet consumed. -/
def toCome (t : EncState) (r : List Byte) : List Byte :=
  match t with
  | .zfb => refEnc r
  | .zc nzo => zerosFrame .zc nzo r
  | .zd dataLeft post nzo => r.take dataLeft.toNat ++ zerosFrame post (nzo - dataLeft.toNat) (r.drop dataLeft.toNat)
  | .nzc _ => refEnc r
  | .nzd _ dataLeft full => r.take dataLeft.toNat ++ tailFrame full (r.drop dataLeft.toNat)
  | .fz => [Config.term]
  | .fin => []

theorem refEnc_ne_nil (x : List Byte) : refEnc x ≠ [] := by simp [refEnc]

/-- Nothing is still to come in `FIN` only. -/
theorem toCome_eq_nil {t : EncState} {r : List Byte} (h : toCome t r = []) : t = .fin := by
  have hzeros : ∀ post nzo r, zerosFrame post nzo r ≠ [] := fun post nzo r => by
    unfold zerosFrame
    split <;> exact refEnc_ne_nil _
  have htail : ∀ full r, tailFrame full r ≠ [] := fun full r => by
    cases full
    · exact List.cons_ne_nil _ _
    · exact refEnc_ne_nil r
  cases t with
  | zfb | nzc _ => exact absurd h (refEnc_ne_nil r)
  | zc nzo => exact absurd h (hzeros _ _ _)
  | zd _ _ _ => exact absurd (List.append_eq_nil_iff.mp h).2 (hzeros _ _ _)
  | nzd _ _ _ => exact absurd (List.append_eq_nil_iff.mp h).2 (htail _ _)
  | fz => cases h
  | fin => rfl

/-- The data of a chunk, its first byte taken: the count goes down by one and what follows the chunk stays. -/
theorem data_cons {w : Nat} {c : BitVec w} (h : 1 ≤ c.toNat) (after : List Byte → List Byte) (b : Byte)
    (r : List Byte) :
    (b :: r).take c.toNat ++ after ((b :: r).drop c.toNat) =
      b :: (r.take (c - 1).toNat ++ after (r.drop (c - 1).toNat)) := by
  obtain ⟨n, hn⟩ : ∃ n, c.toNat = n + 1 := ⟨c.toNat - 1, by omega⟩
  rw [counter_decrement h, hn]
  rfl

/-- A chunk of the zeros path without data left is at the state `enc.post` names (R182). -/
theorem toCome_zd_ended (post : Post) (n : Nat) (r : List Byte) :
    toCome (.zd 0 post n) r = toCome (post.target n) r := by
  cases post <;> simp [Post.target, toCome, zerosFrame]

/-- A chunk of the tail without data left is at `NZC` or `FZ` (R184). -/
theorem toCome_nzd_ended (t : Nat) (full : Bool) (r : List Byte) :
    toCome (.nzd t 0 full) r = toCome (if full then .nzc t else .fz) r := by
  cases full <;> simp [toCome, tailFrame]

theorem toCome_zd_cons {c : BitVec Config.encDlBits} {n : Nat} (h : 1 ≤ c.toNat) (hle : c.toNat ≤ n) (post : Post)
    (b : Byte) (r : List Byte) :
    toCome (.zd c post n) (b :: r) =
      b :: toCome (if c - 1 = 0 then post.target (n - 1) else .zd (c - 1) post (n - 1)) r := by
  have hcons : toCome (.zd c post n) (b :: r) = b :: toCome (.zd (c - 1) post (n - 1)) r := by
    have hsub : n - 1 - (c - 1).toNat = n - c.toNat := by rw [counter_decrement h]; omega
    simp only [toCome, hsub]
    exact data_cons h (zerosFrame post (n - c.toNat)) b r
  rw [hcons]
  split
  · next hz => rw [hz, toCome_zd_ended]
  · rfl

theorem toCome_nzd_cons {c : BitVec Config.encDlBits} (h : 1 ≤ c.toNat) (t : Nat) (full : Bool) (b : Byte)
    (r : List Byte) :
    toCome (.nzd t c full) (b :: r) =
      b :: toCome (if c - 1 = 0 then (if full then .nzc (t - 1) else .fz) else .nzd (t - 1) (c - 1) full) r := by
  have hcons : toCome (.nzd t c full) (b :: r) = b :: toCome (.nzd (t - 1) (c - 1) full) r :=
    data_cons h (tailFrame full) b r
  rw [hcons]
  split
  · next hz => rw [hz, toCome_nzd_ended]
  · rfl

/-! ## Each step emits the next byte of it -/

/-- With the frame `f` still to come the production emits its first byte and leaves the rest of it to come, and the
encoder holds nothing once it is in `FIN`. -/
def emits (f : List Byte) (p : Production) : Prop :=
  ∃ b, p.bytes = [b] ∧ f = b :: toCome p.enc.state p.enc.mem.rest ∧ (p.enc.state = .fin → p.enc.mem = Memory.empty)

/-- The first state finds the whole frame still to come (R175). -/
theorem toCome_firstState (r : List Byte) : toCome (firstState (probe r)) r = refEnc r := by
  rcases probe r with (_ | d) | t
  · rfl
  · simp [firstState, toCome, zerosFrame]
  · rfl

/-- `CHUNKZ(d)` (R180) begins the chunk that `Enc` begins with. -/
theorem chunkz_emits {e : Encoder} {d : Nat} (h : e.mem.peek = .zero d) (rel : List Nat) :
    emits (refEnc e.mem.rest) (chunkz d rel e) := by
  obtain ⟨hz, hne⟩ := zeroFreeLength_of_probe_zero h
  refine ⟨_, rfl, ?_, nofun⟩
  simp only [chunkz, goto_state, goto_mem, toCome, chunkLength_load]
  rcases Nat.lt_or_ge d 254 with hlt | hge
  · rw [refEnc_zero (by omega) (by omega), hz, chunkLength_short hlt, postFor_short (by omega)]
    simp [zerosFrame]
  · rw [refEnc_full (by omega), chunkLength_full hge, chunkCode_full hge]
    by_cases hd : d = 254
    · simp [hd, postFor_full, zerosFrame]
    · simp [postFor_short hd, zerosFrame, show d - 254 ≠ 0 by omega]

/-- `NZCODE(t)` (R181) begins the chunk that `Enc` begins with. -/
theorem nzcode_emits {e : Encoder} {t : Nat} (h : e.mem.peek = .noZero t) (rel : List Nat) :
    emits (refEnc e.mem.rest) (nzcode t rel e) := by
  obtain ⟨hz, hlen⟩ := zeroFreeLength_of_probe_noZero h
  by_cases ht : t = 0
  · subst ht
    have hnil : e.mem.rest = [] := List.length_eq_zero_iff.mp hlen.symm
    rw [hnil]
    exact ⟨_, rfl, rfl, nofun⟩
  · have hload : ((chunkLength t : BitVec Config.encDlBits)).toNat = chunkLength t := chunkLength_load t
    rw [nzcode_pos ht]
    refine ⟨_, rfl, ?_, nofun⟩
    simp only [goto_state, goto_mem, toCome, hload]
    rcases Nat.lt_or_ge t 254 with hlt | hge
    · rw [refEnc_last (by omega) (by omega), chunkLength_short hlt, fullFlag_short hlt, hlen, List.take_length]
      rfl
    · rw [refEnc_full (by omega), chunkLength_full hge, chunkCode_full hge, fullFlag_full hge]
      rfl

/-- A zero at the front of the payload is an empty chunk of the frame (R121). -/
theorem refEnc_zero_cons (r : List Byte) : refEnc (0x00#8 :: r) = 0x01#8 :: refEnc r := by
  rw [refEnc_zero (by simp) (by simp)]
  rfl

/-- Step `ZC` (R179): on a zero the chunk after it begins. -/
theorem stepZc_emits {e : Encoder} {nzo : Nat} (hwf : e.mem.wf = true) (h : e.mem.peek = .zero nzo) {p : Production}
    (hp : stepZc nzo e = .ok p) : emits (zerosFrame .zc nzo e.mem.rest) p := by
  by_cases hn : nzo = 0
  · subst hn
    obtain ⟨r, hr⟩ := probe_zero_zero h
    obtain ⟨m, k, hpull, rfl, -⟩ := encoder_pull1_of_rest hwf hr
    rw [stepZc_zero hpull] at hp
    cases hp
    have hf : zerosFrame .zc 0 e.mem.rest = refEnc m.rest := by rw [hr]; rfl
    rw [hf]
    cases hpk : m.peek with
    | noZero t => simpa [hpk] using nzcode_emits (e := e.withMemory m k) hpk (e.releases k)
    | zero d =>
      cases d with
      | zero =>
        obtain ⟨r', hr'⟩ := probe_zero_zero hpk
        simp only [withMemory_mem, hpk]
        exact ⟨_, rfl, by rw [goto_mem, withMemory_mem, hr', refEnc_zero_cons]; rfl, nofun⟩
      | succ d => simpa [hpk] using chunkz_emits (e := e.withMemory m k) hpk (e.releases k)
  · rw [stepZc_pos hn] at hp
    cases hp
    have hf : zerosFrame .zc nzo e.mem.rest = refEnc e.mem.rest := by simp [zerosFrame, hn]
    rw [hf]
    exact chunkz_emits h []

/-- Within the data of a chunk there is a byte to pull. -/
theorem encoder_pull1_of_dataLeft {e : Encoder} (hwf : e.mem.wf = true) {n : Nat} (h : 1 ≤ n)
    (hn : n ≤ zeroFreeLength e.mem.rest) :
    ∃ b m k, e.pull1 = .ok (b, e.withMemory m k, e.releases k) ∧ e.mem.rest = b :: m.rest := by
  cases hr : e.mem.rest with
  | nil => rw [hr, zeroFreeLength_nil] at hn; omega
  | cons b r =>
    obtain ⟨m, k, hpull, rfl, -⟩ := encoder_pull1_of_rest hwf hr
    exact ⟨b, m, k, hpull, rfl⟩

/-- Step `ZD` (R182) emits the next byte of the chunk's data. -/
theorem stepZd_emits {e : Encoder} {dataLeft : BitVec Config.encDlBits} {post : Post} {nzo : Nat}
    (hwf : e.mem.wf = true) (h : stateAgrees (.zd dataLeft post nzo) e.mem) {p : Production}
    (hp : stepZd dataLeft post nzo e = .ok p) : emits (toCome (.zd dataLeft post nzo) e.mem.rest) p := by
  obtain ⟨hlo, -, hle, hpk, -⟩ := h
  obtain ⟨hz, -⟩ := zeroFreeLength_of_probe_zero hpk
  obtain ⟨b, m, k, hpull, hr⟩ := encoder_pull1_of_dataLeft hwf hlo (hz.symm ▸ hle)
  rw [stepZd_ok hpull] at hp
  cases hp
  rw [hr]
  refine ⟨b, rfl, toCome_zd_cons hlo hle post b m.rest, fun hfin => ?_⟩
  rw [goto_state] at hfin
  split at hfin
  · cases post <;> cases hfin
  · cases hfin

/-- Step `NZD` (R184) emits the next byte of the chunk's data. -/
theorem stepNzd_emits {e : Encoder} {tail : Nat} {dataLeft : BitVec Config.encDlBits} {full : Bool}
    (hwf : e.mem.wf = true) (h : stateAgrees (.nzd tail dataLeft full) e.mem) {p : Production}
    (hp : stepNzd tail dataLeft full e = .ok p) : emits (toCome (.nzd tail dataLeft full) e.mem.rest) p := by
  obtain ⟨hlo, -, hle, hpk, -⟩ := h
  obtain ⟨hz, -⟩ := zeroFreeLength_of_probe_noZero hpk
  obtain ⟨b, m, k, hpull, hr⟩ := encoder_pull1_of_dataLeft hwf hlo (hz.symm ▸ hle)
  rw [stepNzd_ok hpull] at hp
  cases hp
  rw [hr]
  refine ⟨b, rfl, toCome_nzd_cons hlo tail full b m.rest, fun hfin => ?_⟩
  rw [goto_state] at hfin
  split at hfin
  · split at hfin <;> cases hfin
  · cases hfin

/-- STEP (R177) out of `FIN`: whatever the tag selects, an owned encoder's step emits the first byte of the frame
still to come. -/
theorem encoderStep_emits {e : Encoder} (h : ownedOk e) (hfin : e.state ≠ .fin) {p : Production}
    (hp : encoderStep e = .ok p) : emits (toCome e.state e.mem.rest) p := by
  obtain ⟨hwf, hst⟩ := h
  cases hs : e.state with
  | zfb =>
    rw [hs] at hst
    rw [encoderStep_zfb hs] at hp
    cases hp
    obtain ⟨r, hr⟩ := probe_zero_zero hst
    rw [toCome, hr, refEnc_zero_cons]
    exact ⟨_, rfl, by rw [goto_mem, hr]; rfl, nofun⟩
  | zc nzo => rw [hs] at hst; rw [encoderStep_zc hs] at hp; exact stepZc_emits hwf hst hp
  | zd dataLeft post nzo => rw [hs] at hst; rw [encoderStep_zd hs] at hp; exact stepZd_emits hwf hst hp
  | nzc tail => rw [hs] at hst; rw [encoderStep_nzc hs] at hp; cases hp; exact nzcode_emits hst []
  | nzd tail dataLeft full => rw [hs] at hst; rw [encoderStep_nzd hs] at hp; exact stepNzd_emits hwf hst hp
  | fz => rw [hs] at hst; rw [encoderStep_fz hs] at hp; cases hp; exact ⟨_, rfl, rfl, fun _ => hst⟩
  | fin => exact absurd hs hfin

/-! ## PULLs (R176) -/

/-- PULL on a live owned encoder answers what the loop makes. -/
theorem exec_pull_of_loop {max : Nat} {s : State} (hdead : s.enc.dead = false) (hlife : s.enc.life = .owned)
    {q : Production} (hq : pullLoop max s.enc = .ok q) :
    exec (.pull max) s = .next (s.answerEnc q.enc q.response.2) :=
  congrArg Host.Outcome.next
    (onEncoder_ok hdead (producing_ok (f := encPull max) (p := q) (by simp only [encPull, hlife, hq])))

/-- A loop after a loop is the loop of the sum of their bounds. -/
theorem pullLoop_add {m n : Nat} {e : Encoder} {p q : Production} (hp : pullLoop m e = .ok p)
    (hq : pullLoop n p.enc = .ok q) :
    pullLoop (m + n) e = .ok { enc := q.enc, bytes := p.bytes ++ q.bytes, rel := p.rel ++ q.rel } := by
  induction m generalizing e p with
  | zero => cases hp; simpa using hq
  | succ m ih =>
    by_cases hfin : e.state = .fin
    · rw [pullLoop_fin hfin] at hp
      cases hp
      rw [pullLoop_fin hfin] at hq
      cases hq
      exact pullLoop_fin hfin _
    · cases hstep : encoderStep e with
      | error f => rw [pullLoop_succ_error hfin hstep] at hp; cases hp
      | ok p₁ =>
        rw [pullLoop_succ hfin hstep] at hp
        cases hp₂ : pullLoop m p₁.enc with
        | error f => rw [hp₂] at hp; cases hp
        | ok p₂ =>
          rw [hp₂] at hp
          cases hp
          rw [Nat.succ_add, pullLoop_succ hfin hstep, ih hp₂ hq]
          simp only [List.append_assoc]

/-- Settles O43: PULL is its loop, and a loop cut in two is two loops. -/
theorem pullsConcatenate : Obligations.PullsConcatenate := by
  intro s m n hdead hlife hok
  obtain ⟨p, hp, hpok, hplife⟩ := pullLoop_ownedOk m ((encoderOk_owned_iff hlife).mp hok)
  obtain ⟨q, hq, -, -⟩ := pullLoop_ownedOk n hpok
  have hpdead := (pullLoop_dead m hp).trans hdead
  exact ⟨_, _, _, p.bytes, q.bytes, exec_pull_of_loop hdead hlife hp,
    exec_pull_of_loop (s := s.answerEnc p.enc p.response.2) hpdead (hplife.trans hlife) hq,
    exec_pull_of_loop hdead hlife (pullLoop_add hp hq), rfl, rfl, rfl, rfl, rfl⟩

/-- A live owned encoder in the middle of a frame that was not aborted: `f` is still to come of it, and in `FIN` nothing
is held. -/
def midFrame (f : List Byte) (e : Encoder) : Prop :=
  liveOwned e ∧ toCome e.state e.mem.rest = f ∧ (e.state = .fin → e.mem = Memory.empty)

/-- With nothing still to come the encoder is in `FIN` and holds nothing. -/
theorem midFrame_nil {e : Encoder} (h : midFrame [] e) : e.state = .fin ∧ e.mem = Memory.empty := by
  obtain ⟨-, hf, hempty⟩ := h
  exact ⟨toCome_eq_nil hf, hempty (toCome_eq_nil hf)⟩

/-- The loop of PULL takes the bytes it returns from the front of the frame still to come. -/
theorem pullLoop_midFrame (max : Nat) {f : List Byte} {e : Encoder} (h : midFrame f e) :
    ∃ q, pullLoop max e = .ok q ∧ q.bytes = f.take max ∧ midFrame (f.drop max) q.enc := by
  induction max generalizing f e with
  | zero => exact ⟨_, pullLoop_zero e, rfl, h⟩
  | succ n ih =>
    obtain ⟨⟨hdead, hlife, hok⟩, rfl, hempty⟩ := h
    by_cases hfin : e.state = .fin
    · have hnil : toCome e.state e.mem.rest = [] := by rw [hfin]; rfl
      rw [hnil, List.take_nil, List.drop_nil]
      exact ⟨_, pullLoop_fin hfin _, rfl, ⟨hdead, hlife, hok⟩, hnil, hempty⟩
    · obtain ⟨p, hp, hpok⟩ := encoderStep_ownedOk hok
      obtain ⟨b, hb, hcome, hpempty⟩ := encoderStep_emits hok hfin hp
      obtain ⟨hplife, hpdead⟩ := encoderStep_keeps hp
      obtain ⟨q, hq, hqbytes, hqmid⟩ := ih ⟨⟨hpdead.trans hdead, hplife.trans hlife, hpok⟩, rfl, hpempty⟩
      have hloop := pullLoop_succ hfin hp n
      rw [hq] at hloop
      rw [hcome]
      exact ⟨_, hloop, by rw [hb, hqbytes]; rfl, hqmid⟩

theorem exec_pull_midFrame (max : Nat) {f : List Byte} {s : State} (h : midFrame f s.enc) :
    ∃ t, exec (.pull max) s = .next t ∧ t.ports.encBytes = some (f.take max) ∧ midFrame (f.drop max) t.enc := by
  obtain ⟨q, hq, hbytes, hmid⟩ := pullLoop_midFrame max h
  obtain ⟨⟨hdead, hlife, -⟩, -⟩ := h
  exact ⟨_, exec_pull_of_loop hdead hlife hq, congrArg some hbytes, hmid⟩

/-- PULLs of any sizes return the frame still to come, cut off where they end. -/
theorem issue_pulls_midFrame (ms : List Nat) {f : List Byte} {s : State} (h : midFrame f s.enc) :
    ∃ ps t, issue (ms.map Instr.pull) s = some (ps, t) ∧ frameOf ps = f.take ms.sum ∧
      midFrame (f.drop ms.sum) t.enc := by
  induction ms generalizing f s with
  | nil => exact ⟨[], s, rfl, rfl, h⟩
  | cons m ms ih =>
    obtain ⟨s', he, hbytes, hmid⟩ := exec_pull_midFrame m h
    obtain ⟨ps, t, hr, hframe, hmid'⟩ := ih hmid
    refine ⟨_, t, issue_cons_of_next he hr, ?_, ?_⟩
    · rw [frameOf_cons, hbytes, hframe, List.sum_cons, List.take_add]; rfl
    · rw [List.sum_cons, ← List.drop_drop]; exact hmid'

/-- START (R175) returns no byte and leaves the whole frame still to come. -/
theorem exec_start_midFrame (chain : Chain) {s : State} (hdead : s.enc.dead = false) (hlife : s.enc.life ≠ .owned) :
    ∃ t, exec (.start chain) s = .next t ∧ t.ports.encBytes = none ∧ midFrame (refEnc chain.flatten) t.enc ∧
      drains 0 (handedOver chain s.enc) t.enc t.ports.rel := by
  obtain ⟨t, he, hlive, hd⟩ := exec_start_liveOwned chain hdead hlife
  have hrun := onEncoder_ok hdead (f := encStart chain) (by simp only [encStart, if_neg hlife]; rfl)
  obtain rfl := Host.Outcome.next.inj (he.symm.trans (congrArg Host.Outcome.next hrun))
  refine ⟨_, he, rfl, ⟨hlive, ?_, fun hfin => ?_⟩, hd⟩
  · rw [answerEnc_enc, peek_eq_probe, toCome_firstState, load_rest]
  · have hcome := toCome_firstState (Memory.load chain).1.rest
    rw [← peek_eq_probe, show firstState _ = .fin from hfin] at hcome
    exact absurd hcome.symm (refEnc_ne_nil _)

/-- A frame's session up to its PULLs: the bytes of the frame, cut off where they end, from a chain that is drained as
far as they go. -/
theorem issue_frame (chain : Chain) (ms : List Nat) {s : State} (hdead : s.enc.dead = false)
    (hlife : s.enc.life ≠ .owned) :
    ∃ ps t n, issue (.start chain :: ms.map Instr.pull) s = some (ps, t) ∧
      frameOf ps = (refEnc chain.flatten).take ms.sum ∧ midFrame ((refEnc chain.flatten).drop ms.sum) t.enc ∧
      drains n (handedOver chain s.enc) t.enc (releasesOf ps) := by
  obtain ⟨s', he, hnone, hmid, hd⟩ := exec_start_midFrame chain hdead hlife
  obtain ⟨ps, t, hr, hframe, hmid'⟩ := issue_pulls_midFrame ms hmid
  have hpulls : ∀ i ∈ ms.map Instr.pull, ∀ c, i ≠ .start c := by
    intro i hi c
    obtain ⟨max, -, rfl⟩ := List.mem_map.mp hi
    exact nofun
  obtain ⟨n, hd'⟩ := issue_drains hpulls (drains_wf hd) hr
  refine ⟨_, t, 0 + n, issue_cons_of_next he hr, ?_, hmid', drains_trans hd hd'⟩
  rw [frameOf_cons, hnone, hframe]
  rfl

/-- Settles O48: each step emits the first byte of the frame still to come and leaves the rest, so the PULLs together
return its front; when nothing is still to come the chain is drained. -/
theorem encoderComputesTheReferenceFrame : Obligations.EncoderComputesTheReferenceFrame := by
  intro s chain ms hdead hlife
  obtain ⟨ps, t, n, hrun, hframe, hmid, hd⟩ := issue_frame chain ms hdead hlife
  have ⟨⟨hdead', hlife', _⟩, _⟩ := hmid
  refine ⟨ps, t, hrun, hframe, hlife', hdead', fun hlen => ?_⟩
  rw [List.drop_eq_nil_of_le hlen] at hmid
  obtain ⟨hfin, hempty⟩ := midFrame_nil hmid
  exact ⟨hfin, hempty, releases_of_drained hd hempty⟩

/-- Settles O51: the body holds no zero, and what any PULLs return, less its last byte, is a part of the body. -/
theorem frameHoldsNoZeroButTheLast : Obligations.FrameHoldsNoZeroButTheLast := by
  refine ⟨zero_notMem_body, fun s t chain ms ps hdead hlife hrun hmem => ?_⟩
  obtain ⟨ps', t', n, hrun', hframe, -, -⟩ := issue_frame chain ms hdead hlife
  obtain ⟨rfl, rfl⟩ := Prod.mk.inj (Option.some.inj (hrun'.symm.trans hrun))
  rw [hframe, List.dropLast_take_eq_take_dropLast, refEnc, List.dropLast_concat] at hmem
  exact zero_notMem_body _ (List.mem_of_mem_take hmem)

end Sys2Proof.Safety
end

section
/-! # FEED (R140) said once for each position, and feeding a whole frame (R124, R128, R129) -/

namespace Sys2Proof.Safety

open Sys2Proof.Machine

/-! ## FEED in each position -/

theorem feedByte_code_zero {d : Decoder} (hs : d.state = .code) : feedByte 0x00#8 d = feedTerm d := by
  simp [feedByte, hs]

/-- A code byte (R142 to R145): it pays the owed zero, its count says what follows, and it may owe a zero itself. -/
theorem feedByte_code {b : Byte} (hb : b ≠ 0x00#8) {d : Decoder} (hs : d.state = .code) :
    feedByte b d =
      ({ state := if b = Config.codeMin then .code else .data,
         remaining := if b = Config.codeMin then d.remaining else BitVec.ofNat Config.decRemBits (dataCount b),
         pendingZero := zeroOwedBy b },
       feedResponse .consumed (if d.pendingZero then some 0x00#8 else none)) := by
  simp only [feedByte, hs, if_neg hb]
  by_cases h1 : b = Config.codeMin
  · simp [h1, feedZero, payOwedZero_eq, hs, zeroOwedBy]
  · rw [if_neg h1, if_neg h1, if_neg h1]
    by_cases h255 : b = Config.codeFull
    · rw [if_pos h255, h255]
      simp only [feedRunf, payOwedZero_eq]
    · rw [if_neg h255]
      simp only [feedRunz, payOwedZero_eq, codeByte_dataCount hb]

theorem feedByte_data_zero {d : Decoder} (hs : d.state = .data) : feedByte 0x00#8 d = feedIllz d := by
  simp [feedByte, hs]

theorem feedByte_data {b : Byte} (hb : b ≠ 0x00#8) {d : Decoder} (hs : d.state = .data) :
    feedByte b d = feedLit b d := by
  simp [feedByte, hs, hb]

theorem feedByte_finished {d : Decoder} (hs : d.state = .finished) (b : Byte) : feedByte b d = feedFinished d := by
  simp [feedByte, hs]

/-- `FrameComplete` is the answer to the terminator in code position and to nothing else (R128). -/
theorem feedByte_frameComplete_iff (b : Byte) (d : Decoder) :
    (feedByte b d).2.decRes = some .frameComplete ↔ d.state = .code ∧ b = 0x00#8 := by
  by_cases hb : b = 0x00#8
  · subst hb
    cases hs : d.state with
    | code => simp [feedByte_code_zero hs, feedTerm]
    | data => simp [feedByte_data_zero hs, feedIllz]
    | finished => simp [feedByte_finished hs, feedFinished]
  · cases hs : d.state with
    | code => simp [feedByte_code hb hs, hb]
    | data => simp [feedByte_data hb hs, feedLit]
    | finished => simp [feedByte_finished hs, feedFinished]

theorem exec_feed (b : Byte) (s : State) : exec (.feed b) s = .next (onDecoder (feedByte b) s) := rfl

/-- Settles O21: `FrameComplete` comes from the terminator in code position alone, which drives no output byte. -/
theorem frameCompleteExactlyOnTheTerminator : Obligations.FrameCompleteExactlyOnTheTerminator := by
  intro s t b h
  rw [exec_feed] at h
  cases h
  refine ⟨feedByte_frameComplete_iff b s.dec, fun hres => ?_⟩
  obtain ⟨hs, rfl⟩ := (feedByte_frameComplete_iff b s.dec).mp hres
  rw [onDecoder_ports, feedByte_code_zero hs]
  rfl

/-! ## Runs of FEEDs that all give one result -/

/-- The FEEDs of `f` from `s` to `t` all give the result `r`, and their output bytes are `out`. -/
def feedsAll (r : FeedResult) (f out : List Byte) (s t : State) : Prop :=
  ∃ ps, issue (f.map Instr.feed) s = some (ps, t) ∧ resultsOf ps = List.replicate f.length (some r) ∧ outputsOf ps = out

theorem feedsAll_nil (r : FeedResult) (s : State) : feedsAll r [] [] s s := ⟨[], rfl, rfl, rfl⟩

theorem feedsAll_append {r : FeedResult} {f g out out' : List Byte} {s t u : State} (h : feedsAll r f out s t)
    (h' : feedsAll r g out' t u) : feedsAll r (f ++ g) (out ++ out') s u := by
  obtain ⟨ps, hrun, hres, rfl⟩ := h
  obtain ⟨qs, hrun', hres', rfl⟩ := h'
  refine ⟨ps ++ qs, ?_, ?_, outputsOf_append ps qs⟩
  · rw [List.map_append]
    exact issue_append_some hrun hrun'
  · rw [resultsOf_append, hres, hres', List.length_append, List.replicate_add]

theorem feedsAll_cons {r : FeedResult} {b : Byte} {f out : List Byte} {s t : State}
    (hres : (feedByte b s.dec).2.decRes = some r) (h : feedsAll r f out (onDecoder (feedByte b) s) t) :
    feedsAll r (b :: f) ((feedByte b s.dec).2.decOut.toList ++ out) s t := by
  obtain ⟨ps, hrun, hres', rfl⟩ := h
  refine ⟨_, issue_cons_of_next (exec_feed b s) hrun, ?_, rfl⟩
  rw [resultsOf_cons, hres', onDecoder_ports, hres, List.length_cons, List.replicate_succ]

/-- A finished decoder refuses every FEED (R148). -/
theorem feedsAll_finished (g : List Byte) {s : State} (hs : s.dec.state = .finished) :
    ∃ t, feedsAll .protocolError g [] s t := by
  induction g generalizing s with
  | nil => exact ⟨s, feedsAll_nil _ s⟩
  | cons b g ih =>
    obtain ⟨t, ht⟩ := ih (s := onDecoder (feedByte b) s) (by rw [onDecoder_dec, feedByte_finished hs]; exact hs)
    have hcons := feedsAll_cons (by rw [feedByte_finished hs]; rfl) ht
    rw [feedByte_finished hs] at hcons
    exact ⟨t, hcons⟩

/-- Settles O23: `ILLZ` finishes the decoder, and a finished decoder refuses what is fed; in code position the zero is
the terminator. -/
theorem zeroInADataRunIsReportedUntilReset : Obligations.ZeroInADataRunIsReportedUntilReset := by
  refine fun s g => ⟨fun hs => ?_, fun hs => ?_⟩
  · obtain ⟨t, ps, hrun, hres, hout⟩ := feedsAll_finished g (s := onDecoder (feedByte 0x00#8) s)
      (by rw [onDecoder_dec, feedByte_data_zero hs]; rfl)
    refine ⟨_, t, issue_cons_of_next (exec_feed _ s) hrun, ?_, ?_, rfl⟩
    · rw [resultsOf_cons, hres, onDecoder_ports, feedByte_data_zero hs]; rfl
    · rw [outputsOf_cons, hout, onDecoder_ports, feedByte_data_zero hs]; rfl
  · exact ⟨_, exec_feed _ s, (feedByte_frameComplete_iff _ s.dec).mpr ⟨hs, rfl⟩⟩

/-! ## Feeding a frame chunk by chunk -/

/-- The decoder stands between two chunks, and a zero is owed or not. -/
def betweenChunks (owed : Bool) (d : Decoder) : Prop := d.state = .code ∧ d.pendingZero = owed

/-- The data of a chunk, none of it zero, is delivered as it is, and the code position is reached after the last. -/
theorem feedsAll_data {u : List Byte} (hu : 0x00#8 ∉ u) (hne : u ≠ []) {s : State} (hs : s.dec.state = .data)
    (hrem : s.dec.remaining.toNat = u.length) :
    ∃ t, feedsAll .consumed u u s t ∧ betweenChunks s.dec.pendingZero t.dec := by
  induction u generalizing s with
  | nil => exact absurd rfl hne
  | cons b u ih =>
    simp only [List.mem_cons, not_or] at hu
    obtain ⟨hb, hu⟩ := hu
    have hfeed := feedByte_data (Ne.symm hb) hs
    have hpos : 1 ≤ s.dec.remaining.toNat := by rw [hrem]; exact Nat.succ_pos _
    have hstep : ∀ {t out}, feedsAll .consumed u out (onDecoder (feedByte b) s) t →
        feedsAll .consumed (b :: u) (b :: out) s t := by
      intro t out h
      have hcons := feedsAll_cons (by rw [hfeed]; rfl) h
      rw [hfeed] at hcons
      exact hcons
    by_cases hnil : u = []
    · subst hnil
      have hz : s.dec.remaining - 1 = 0 := (counter_ended_iff hpos).mpr hrem
      refine ⟨_, hstep (feedsAll_nil _ _), ?_⟩
      rw [onDecoder_dec, hfeed]
      exact ⟨if_pos hz, rfl⟩
    · have hz : s.dec.remaining - 1 ≠ 0 := by
        rw [Ne, counter_ended_iff hpos, hrem]
        simpa using hnil
      have hdec : (onDecoder (feedByte b) s).dec = (feedLit b s.dec).1 := by rw [onDecoder_dec, hfeed]
      obtain ⟨t, ht, hbetween⟩ := ih hu hnil (s := onDecoder (feedByte b) s) (by rw [hdec]; exact (if_neg hz).trans hs)
        (by rw [hdec]; exact (counter_decrement hpos).trans (by rw [hrem]; rfl))
      rw [hdec] at hbetween
      exact ⟨t, hstep ht, hbetween⟩

/-- A whole chunk delivers the owed zero and its data, and its code says whether a zero is owed next: what `Dec` makes
of a chunk (R123). -/
theorem feedsAll_chunk {u : List Byte} (hu : 0x00#8 ∉ u) (hlen : u.length ≤ 254) {owed : Bool} {s : State}
    (h : betweenChunks owed s.dec) :
    ∃ t, feedsAll .consumed (chunkCode u.length :: u) (owedZero owed ++ u) s t ∧
      betweenChunks (zeroOwedBy (chunkCode u.length)) t.dec := by
  obtain ⟨hs, rfl⟩ := h
  have hfeed := feedByte_code (chunkCode_ne_zero u.length) hs
  have hstep : ∀ {t out}, feedsAll .consumed u out (onDecoder (feedByte (chunkCode u.length)) s) t →
      feedsAll .consumed (chunkCode u.length :: u) (owedZero s.dec.pendingZero ++ out) s t := by
    intro t out h
    have hcons := feedsAll_cons (by rw [hfeed]; rfl) h
    have hout : (feedByte (chunkCode u.length) s.dec).2.decOut.toList = owedZero s.dec.pendingZero := by
      rw [hfeed]
      cases s.dec.pendingZero <;> rfl
    rw [hout] at hcons
    exact hcons
  by_cases hnil : u = []
  · subst hnil
    refine ⟨_, hstep (feedsAll_nil _ _), ?_⟩
    rw [onDecoder_dec, hfeed]
    exact ⟨rfl, rfl⟩
  · have hmin : chunkCode u.length ≠ Config.codeMin := by
      rw [chunkCode_eq_codeByte hlen]
      exact codeByte_ne_one hlen (List.length_pos_iff.mpr hnil)
    rw [if_neg hmin, if_neg hmin, dataCount_chunkCode hlen] at hfeed
    have hdec := congrArg Prod.fst hfeed
    obtain ⟨t, ht, hbetween⟩ := feedsAll_data hu hnil (s := onDecoder (feedByte (chunkCode u.length)) s)
      (by rw [onDecoder_dec, hdec])
      (by rw [onDecoder_dec, hdec]; exact counter_load (Nat.lt_of_le_of_lt hlen (by decide)))
    rw [onDecoder_dec, hdec] at hbetween
    exact ⟨t, hstep ht, hbetween⟩

/-- A chunk in front of a stretch that delivers its payload. -/
theorem feedsAll_chunk_append {u : List Byte} (hu : 0x00#8 ∉ u) (hlen : u.length ≤ 254) {owed owed' : Bool}
    {f out : List Byte}
    (hf : ∀ {t : State}, betweenChunks (zeroOwedBy (chunkCode u.length)) t.dec →
      ∃ t', feedsAll .consumed f out t t' ∧ betweenChunks owed' t'.dec)
    {s : State} (h : betweenChunks owed s.dec) :
    ∃ t, feedsAll .consumed (chunkCode u.length :: (u ++ f)) (owedZero owed ++ (u ++ out)) s t ∧
      betweenChunks owed' t.dec := by
  obtain ⟨t, ht, hbetween⟩ := feedsAll_chunk hu hlen h
  obtain ⟨t', ht', hbetween'⟩ := hf hbetween
  have hrun := feedsAll_append ht ht'
  rw [List.append_assoc] at hrun
  exact ⟨t', hrun, hbetween'⟩

/-- A body delivers its payload, as it does to `Dec` (`decFrom_body`). -/
theorem feedsAll_body (x : List Byte) {owed : Bool} {s : State} (h : betweenChunks owed s.dec) :
    ∃ t, feedsAll .consumed (body x) (owedZero owed ++ x) s t ∧ betweenChunks true t.dec := by
  induction x using chunk_induction generalizing owed s with
  | hfull u y hu hlen ih =>
    rw [body_fullChunk hu hlen]
    refine feedsAll_chunk_append hu hlen.le (fun ht => ?_) h
    rw [hlen] at ht
    exact ih ht
  | hlast u hu hlen =>
    rw [body_lastChunk hu hlen, ← zeroOwedBy_chunkCode_short hlen]
    exact feedsAll_chunk hu hlen.le h
  | hzero u y hu hlen ih =>
    rw [body_zeroChunk hu hlen]
    refine feedsAll_chunk_append hu hlen.le (fun ht => ?_) h
    rw [zeroOwedBy_chunkCode_short hlen] at ht
    exact ih ht

/-- A frame fed to a decoder in its reset state delivers its payload, with `FrameComplete` on the last byte. -/
theorem issue_feed_refEnc (x : List Byte) {s : State} (h : s.dec = Decoder.reset) :
    ∃ qs u, issue ((refEnc x).map Instr.feed) s = some (qs, u) ∧ outputsOf qs = x ∧
      resultsOf qs = List.replicate ((refEnc x).length - 1) (some .consumed) ++ [some .frameComplete] := by
  obtain ⟨t, ⟨ps, hrun, hres, hout⟩, hs, -⟩ := feedsAll_body x (owed := false) (s := s) (by rw [h]; exact ⟨rfl, rfl⟩)
  have hterm := issue_cons_of_next (exec_feed 0x00#8 t) (issue_nil _)
  refine ⟨_, _, by rw [refEnc, List.map_append]; exact issue_append_some hrun hterm, ?_, ?_⟩
  · rw [outputsOf_append, hout, outputsOf_cons, onDecoder_ports, feedByte_code_zero hs]
    exact List.append_nil x
  · rw [resultsOf_append, hres, resultsOf_cons, onDecoder_ports, feedByte_code_zero hs, refEnc, List.length_append]
    rfl

/-- Settles O50: a covering PULL returns `Enc` of the payload and leaves the decoder alone; `Dec`, and the decoder by
the same induction over the chunks, take it back. -/
theorem encodedFrameDecodesToThePayload : Obligations.EncodedFrameDecodesToThePayload := by
  intro s chain max hdead hlife hdec hlen
  refine ⟨refDec_refEnc _, ?_⟩
  obtain ⟨s', hstart, hnone, hmid, -⟩ := exec_start_midFrame chain hdead hlife
  obtain ⟨t, hpull, hbytes, -⟩ := exec_pull_midFrame max hmid
  have hdec' : t.dec = Decoder.reset := by
    obtain ⟨-, -, hkept⟩ := eachInstructionLeavesTheOtherMachineAlone _ _ _ hstart
    obtain ⟨-, -, hkept'⟩ := eachInstructionLeavesTheOtherMachineAlone _ _ _ hpull
    rw [hkept' rfl, hkept rfl, hdec]
  have hframe : frameOf [s'.ports, t.ports] = refEnc chain.flatten := by
    simp [hnone, hbytes, List.take_of_length_le hlen]
  obtain ⟨qs, u, hfeed, hout, hres⟩ := issue_feed_refEnc chain.flatten hdec'
  refine ⟨_, t, qs, u, issue_cons_of_next hstart (issue_cons_of_next hpull (issue_nil t)), ?_⟩
  rw [hframe]
  exact ⟨hfeed, hout, hres⟩

end Sys2Proof.Safety
end

section
/-! # The decoder's instructions in their own position (R142 to R146, R149): the next state of each, in full -/

namespace Sys2Proof.Safety

open Sys2Proof.Machine

/-! ## What an instruction answers, from its effect on the decoder's registers -/

theorem onDecoder_of_effect {f : Decoder → Decoder × Ports} {s : State} {d : Decoder} {p : Ports}
    (hf : f s.dec = (d, p)) : onDecoder f s = { s with dec := d, ports := p } := by
  rw [onDecoder, hf, State.answerDec]

/-- In code position the wire byte answers its effect, and all else stays (R76, R94). -/
theorem inCodePosition_of_effect {f : Decoder → Decoder × Ports} {s : State} (hs : s.dec.state = .code) {d : Decoder}
    {p : Ports} (hf : f s.dec = (d, p)) : inCodePosition f s = .next { s with dec := d, ports := p } := by
  simp only [inCodePosition, hs, onDecoder_of_effect hf]

/-- In data position the wire byte answers its effect, and all else stays (R76, R95). -/
theorem inDataPosition_of_effect {f : Decoder → Decoder × Ports} {s : State} (hs : s.dec.state = .data) {d : Decoder}
    {p : Ports} (hf : f s.dec = (d, p)) : inDataPosition f s = .next { s with dec := d, ports := p } := by
  simp only [inDataPosition, hs, onDecoder_of_effect hf]

/-! ## The effects, with the owed zero paid (R142) -/

theorem feedZero_eq (d : Decoder) :
    feedZero d = ({ d with pendingZero := true },
      feedResponse .consumed (if d.pendingZero then some 0x00#8 else none)) := by
  rw [feedZero, payOwedZero_eq]

/-- Up to 253 data bytes the code byte is not `0xFF`, so a zero is owed after them (R92). -/
theorem feedRunz_eq {n : Nat} (h : n ≤ 253) (d : Decoder) :
    feedRunz n d = ({ state := .data, remaining := BitVec.ofNat Config.decRemBits n, pendingZero := true },
      feedResponse .consumed (if d.pendingZero then some 0x00#8 else none)) := by
  have howed : zeroOwedBy (codeByte n) = true := decide_eq_true (codeByte_ne_full h)
  rw [feedRunz, payOwedZero_eq, howed]

theorem feedRunf_eq (d : Decoder) :
    feedRunf d = ({ state := .data, remaining := 254, pendingZero := false },
      feedResponse .consumed (if d.pendingZero then some 0x00#8 else none)) := by
  have hcount : BitVec.ofNat Config.decRemBits (dataCount Config.codeFull) = 254 := by decide
  have howed : zeroOwedBy Config.codeFull = false := by decide
  rw [feedRunf, payOwedZero_eq, hcount, howed]

theorem feedLit_eq (b : Byte) {d : Decoder} (hs : d.state = .data) :
    feedLit b d = ({ d with state := if d.remaining - 1 = 0 then .code else .data, remaining := d.remaining - 1 },
      feedResponse .consumed (some b)) := by
  rw [feedLit, hs]

/-! ## The statements -/

/-- Settles O12: the flag that paying clears is set again. -/
theorem zeroPaysTheOwedZeroAndOwesOne : Obligations.ZeroPaysTheOwedZeroAndOwesOne := by
  intro s hs
  exact inCodePosition_of_effect hs (feedZero_eq s.dec)

/-- Settles O13: no code of a run of up to 253 bytes is `0xFF`. -/
theorem runzStartsARunThatOwesAZero : Obligations.RunzStartsARunThatOwesAZero := by
  intro s n _ hn hs
  exact inCodePosition_of_effect hs (feedRunz_eq hn s.dec)

/-- Settles O14: the code `0xFF` announces 254 bytes and owes no zero. -/
theorem runfStartsAFullRunThatOwesNothing : Obligations.RunfStartsAFullRunThatOwesNothing := by
  intro s hs
  exact inCodePosition_of_effect hs (feedRunf_eq s.dec)

/-- Settles O15: where the run goes on, the state written is `Data`, which it was. -/
theorem litOutputsTheByteAndCountsDown : Obligations.LitOutputsTheByteAndCountsDown := by
  intro s b _ hs
  exact inDataPosition_of_effect hs (feedLit_eq b hs)

/-- Settles O20: RESET reads no register of the decoder, so its answer is the same from every state (R149). -/
theorem resetReturnsTheDecoderToItsInitialState : Obligations.ResetReturnsTheDecoderToItsInitialState := by
  intro s
  rfl

end Sys2Proof.Safety
end

section
/-! # The segment cursor (R160 to R164): what PEEK, CPULL1 and CPULL answer from a live encoder, in full -/

namespace Sys2Proof.Safety

open Sys2Proof.Machine

/-! ## The scan by positions (R160) -/

/-- The probe says `Zero(d)` exactly when the byte `d` ahead is the first zero. -/
theorem probe_zero_iff_getElem? (r : List Byte) (d : Nat) :
    probe r = .zero d ↔ r[d]? = some 0x00#8 ∧ ∀ j, j < d → r[j]? ≠ some 0x00#8 := by
  rw [probe_zero_iff]
  constructor
  · rintro ⟨u, v, rfl, rfl, hu⟩
    refine ⟨by simp, fun j hj hzero => hu ?_⟩
    rw [List.getElem?_append_left hj] at hzero
    exact List.mem_of_getElem? hzero
  · rintro ⟨hzero, hbefore⟩
    obtain ⟨hd, hget⟩ := List.getElem?_eq_some_iff.mp hzero
    refine ⟨r.take d, r.drop (d + 1), ?_, List.length_take_of_le (Nat.le_of_lt hd), fun hmem => ?_⟩
    · rw [← hget, ← List.drop_eq_getElem_cons hd, List.take_append_drop]
    · obtain ⟨j, hj⟩ := List.mem_iff_getElem?.mp hmem
      rw [List.getElem?_take] at hj
      split at hj
      · next hjd => exact hbefore j hjd hj
      · cases hj

/-! ## What an encoder operation answers, from its effect on the encoder's registers -/

/-- On a live encoder an operation that completes answers its effect, and all else stays (R76). -/
theorem onEncoder_of_effect {f : Encoder → Except Fault (Encoder × Ports)} {s : State} (hdead : s.enc.dead = false)
    {e : Encoder} {p : Ports} (hf : f s.enc = .ok (e, p)) : onEncoder f s = { s with enc := e, ports := p } := by
  rw [onEncoder_ok hdead hf, State.answerEnc]

/-- On a live encoder an operation that faults answers the state with the dead bit set, and the model's record of the
fault (R214). -/
theorem onEncoder_of_fault {f : Encoder → Except Fault (Encoder × Ports)} {s : State} (hdead : s.enc.dead = false)
    {fault : Fault} (hf : f s.enc = .error fault) :
    onEncoder f s =
      { s with enc := { s.enc with dead := true }, ports := { Ports.idle with fault := some fault } } := by
  rw [onEncoder_error hdead hf, takeFault, State.answerEnc]

/-! ## The pulls, where enough remains (R162, R163) -/

theorem cursorPull1_of_rest {e : Encoder} (hwf : e.mem.wf = true) {b : Byte} {r : List Byte} (h : e.mem.rest = b :: r) :
    ∃ m k, consumes e.mem 1 m k ∧
      cursorPull1 e = .ok (e.withMemory m k, { Ports.idle with pulled := some [b], rel := e.releases k }) := by
  obtain ⟨m, k, hpull, -⟩ := pull1_of_rest hwf h
  exact ⟨m, k, pull1_consumes hwf hpull, by simp only [cursorPull1, Encoder.pull1, hpull]⟩

theorem cursorPull_of_le {e : Encoder} (hwf : e.mem.wf = true) {n : Nat} (h : n ≤ e.mem.rest.length) :
    ∃ m k, consumes e.mem n m k ∧
      cursorPull n e =
        .ok (e.withMemory m k, { Ports.idle with pulled := some (e.mem.rest.take n), rel := e.releases k }) := by
  obtain ⟨m, k, hmany, -⟩ := pullMany_of_rest n hwf h
  have hpull : e.mem.pull n = some (e.mem.rest.take n, m, k) := by rw [Memory.pull, if_neg (Nat.not_lt.mpr h), hmany]
  exact ⟨m, k, pull_consumes hwf hpull, by simp only [cursorPull, hpull]⟩

/-! ## The pulls, where too little remains (R164) -/

theorem cursorPull1_of_empty {e : Encoder} (h : e.mem.rest = []) : cursorPull1 e = .error .cursorUnderrun := by
  simp only [cursorPull1, encoder_pull1_of_empty h]

/-- The length is checked before a byte is consumed (D23). -/
theorem cursorPull_of_lt {e : Encoder} {n : Nat} (h : e.mem.rest.length < n) :
    cursorPull n e = .error .cursorUnderrun := by
  simp only [cursorPull, Memory.pull, if_pos h]

/-- `enc.state` selects a step that pulls a byte: `ZC` on a zero, `ZD`, `NZD` (R179, R182, R184). -/
def selectsPull (t : EncState) : Prop :=
  t = .zc 0 ∨ (∃ dataLeft post nzo, t = .zd dataLeft post nzo) ∨ ∃ tail dataLeft full, t = .nzd tail dataLeft full

theorem encoderStep_of_empty {e : Encoder} (h : e.mem.rest = []) (hsel : selectsPull e.state) :
    encoderStep e = .error .cursorUnderrun := by
  have hpull := encoder_pull1_of_empty h
  rcases hsel with hs | ⟨dataLeft, post, nzo, hs⟩ | ⟨tail, dataLeft, full, hs⟩
  · rw [encoderStep_zc hs]; simp only [stepZc, if_true, hpull]
  · rw [encoderStep_zd hs]; simp only [stepZd, hpull]
  · rw [encoderStep_nzd hs]; simp only [stepNzd, hpull]

/-! ## The statements -/

/-- Settles O25: PEEK answers the probe of the unconsumed bytes and keeps the registers. -/
theorem peekFindsTheNextZero : Obligations.PeekFindsTheNextZero := by
  intro s hdead
  refine ⟨s.enc.mem.peek, ?_, probe_zero_iff_getElem? s.enc.mem.rest, probe_noZero_iff s.enc.mem.rest⟩
  exact congrArg _ (onEncoder_of_effect hdead rfl)

/-- Settles O26: from the normal form the byte at the read position is there to pull. -/
theorem cpull1ConsumesOneByte : Obligations.Cpull1ConsumesOneByte := by
  intro s b r hdead hwf hrest
  obtain ⟨m, k, hcons, heffect⟩ := cursorPull1_of_rest hwf hrest
  exact ⟨m, k, hcons, congrArg _ (onEncoder_of_effect hdead heffect)⟩

/-- Settles O27: the length check passes, and the pulls of single bytes consume `n` bytes together. -/
theorem cpullConsumesExactlyNBytes : Obligations.CpullConsumesExactlyNBytes := by
  intro s n hdead hwf hlen
  obtain ⟨m, k, hcons, heffect⟩ := cursorPull_of_le hwf hlen
  exact ⟨m, k, hcons, congrArg _ (onEncoder_of_effect hdead heffect)⟩

/-- Settles O28: each of the operations fails before it has written a register, and the fault is taken (R214). -/
theorem pullingTooMuchTakesCursorUnderrun : Obligations.PullingTooMuchTakesCursorUnderrun := by
  intro s n hdead
  refine ⟨fun hempty => ?_, fun hlt => ?_, fun hempty hsel => ?_⟩
  · exact congrArg _ (onEncoder_of_fault hdead (cursorPull1_of_empty hempty))
  · exact congrArg _ (onEncoder_of_fault hdead (cursorPull_of_lt hlt))
  · rw [exec_selectedStep]
    exact congrArg _ (onEncoder_of_fault hdead (producing_error (encoderStep_of_empty hempty hsel)))

end Sys2Proof.Safety
end

section
/-! # The encoder's seven steps (R178 to R186, R189, R191): the next state of each from a live encoder, in full -/

namespace Sys2Proof.Safety

open Sys2Proof.Machine

/-! ## A step that emits one byte (R191) -/

/-- Emitting the byte `b` and going to the state `t`, with the events `rel`. -/
def emitThen (b : Byte) (t : EncState) (rel : List Nat) (e : Encoder) : Production :=
  { enc := e.goto t, bytes := [b], rel := rel }

/-- Emitting the code of the next chunk as the transition table gives it for the probe's answer (R189). -/
def emitCode (p : Peek) (rel : List Nat) (e : Encoder) : Production :=
  emitThen (afterProbe p).2 (afterProbe p).1 rel e

/-- The chunk of the zeros path (R180) is the row of the table for its distance. -/
theorem chunkz_eq_emitCode {d : Nat} (hd : d ≠ 0) (rel : List Nat) (e : Encoder) :
    chunkz d rel e = emitCode (.zero d) rel e := by
  rcases Nat.lt_trichotomy d 254 with hlt | rfl | hgt
  · simp only [chunkz, emitCode, emitThen, afterProbe, if_neg hd, if_pos hlt, chunkLength_short hlt,
      chunkCode_short hlt, postFor_short (Nat.ne_of_lt hlt)]
  · rfl
  · simp only [chunkz, emitCode, emitThen, afterProbe, if_neg hd, if_neg (Nat.lt_asymm hgt), if_neg (Nat.ne_of_gt hgt),
      chunkLength_full (Nat.le_of_lt hgt), chunkCode_full (Nat.le_of_lt hgt), postFor_short (Nat.ne_of_gt hgt)]
    rfl

/-- The chunk of the zero-free tail (R181) is the row of the table for its length. -/
theorem nzcode_eq_emitCode (t : Nat) (rel : List Nat) (e : Encoder) : nzcode t rel e = emitCode (.noZero t) rel e := by
  by_cases ht : t = 0
  · subst ht
    rfl
  · rcases Nat.lt_or_ge t 254 with hlt | hge
    · simp only [nzcode_pos ht, emitCode, emitThen, afterProbe, if_neg ht, if_pos hlt, chunkLength_short hlt,
        chunkCode_short hlt, fullFlag_short hlt]
      rfl
    · simp only [nzcode_pos ht, emitCode, emitThen, afterProbe, if_neg ht, if_neg (Nat.not_lt.mpr hge),
        chunkLength_full hge, chunkCode_full hge, fullFlag_full hge]
      rfl

/-- Step `ZC` on a zero emits the row of the table for what the probe finds behind it (R179). -/
theorem stepZc_zero_eq_emitCode {e e' : Encoder} {b : Byte} {rel : List Nat} (h : e.pull1 = .ok (b, e', rel)) :
    stepZc 0 e = .ok (emitCode e'.mem.peek rel e') := by
  rw [stepZc_zero h]
  cases e'.mem.peek with
  | noZero t => exact congrArg _ (nzcode_eq_emitCode t rel e')
  | zero d =>
    cases d with
    | zero => rfl
    | succ d => exact congrArg _ (chunkz_eq_emitCode (Nat.succ_ne_zero d) rel e')

theorem stepZc_pos_eq_emitCode {n : Nat} (h : n ≠ 0) (e : Encoder) : stepZc n e = .ok (emitCode (.zero n) [] e) := by
  rw [stepZc_pos h, chunkz_eq_emitCode h]

theorem stepNzc_eq_emitCode (t : Nat) (e : Encoder) : stepNzc t e = .ok (emitCode (.noZero t) [] e) := by
  rw [stepNzc, nzcode_eq_emitCode]

/-- Everything a step out of `FIN` can do: it emits one byte, from the registers as they are or after one
`ChainPull1()`. -/
theorem encoderStep_cases {e : Encoder} (hfin : e.state ≠ .fin) {p : Production} (h : encoderStep e = .ok p) :
    ∃ b t, p = emitThen b t [] e ∨ ∃ c e' rel, e.pull1 = .ok (c, e', rel) ∧ p = emitThen b t rel e' := by
  cases hs : e.state with
  | zfb => rw [encoderStep_zfb hs] at h; cases h; exact ⟨_, _, .inl rfl⟩
  | nzc t => rw [encoderStep_nzc hs, stepNzc_eq_emitCode] at h; cases h; exact ⟨_, _, .inl rfl⟩
  | fz => rw [encoderStep_fz hs] at h; cases h; exact ⟨_, _, .inl rfl⟩
  | fin => exact absurd hs hfin
  | zc n =>
    rw [encoderStep_zc hs] at h
    by_cases hn : n = 0
    · subst hn
      cases hp : e.pull1 with
      | error f => simp [stepZc, hp] at h
      | ok r => rw [stepZc_zero_eq_emitCode hp] at h; cases h; exact ⟨_, _, .inr ⟨_, _, _, rfl, rfl⟩⟩
    · rw [stepZc_pos_eq_emitCode hn] at h; cases h; exact ⟨_, _, .inl rfl⟩
  | zd dataLeft post nzo =>
    rw [encoderStep_zd hs] at h
    cases hp : e.pull1 with
    | error f => simp [stepZd, hp] at h
    | ok r => rw [stepZd_ok hp] at h; cases h; exact ⟨_, _, .inr ⟨_, _, _, rfl, rfl⟩⟩
  | nzd tail dataLeft full =>
    rw [encoderStep_nzd hs] at h
    cases hp : e.pull1 with
    | error f => simp [stepNzd, hp] at h
    | ok r => rw [stepNzd_ok hp] at h; cases h; exact ⟨_, _, .inr ⟨_, _, _, rfl, rfl⟩⟩

/-- A step out of `FIN` emits exactly one byte and drains at most one (R191). -/
theorem encoderStep_one_byte {e : Encoder} (hwf : e.mem.wf = true) (hfin : e.state ≠ .fin) {p : Production}
    (h : encoderStep e = .ok p) : p.bytes.length = 1 ∧ ∃ n, n ≤ 1 ∧ drains n e p.enc p.rel := by
  obtain ⟨b, t, rfl | ⟨c, e', rel, hpull, rfl⟩⟩ := encoderStep_cases hfin h
  · exact ⟨rfl, 0, Nat.zero_le 1, drains_zero hwf rfl rfl⟩
  · exact ⟨rfl, 1, Nat.le_refl 1, goto_drains (encoder_pull1_drains hwf hpull) t⟩

/-- A step drains no more bytes than it emits, `FIN` none (R186). -/
theorem encoderStep_drains_le {e : Encoder} (hwf : e.mem.wf = true) {p : Production} (h : encoderStep e = .ok p) :
    ∃ n, n ≤ p.bytes.length ∧ drains n e p.enc p.rel := by
  by_cases hfin : e.state = .fin
  · rw [encoderStep_fin hfin] at h
    cases h
    exact ⟨0, Nat.le_refl 0, drains_zero hwf rfl rfl⟩
  · obtain ⟨hlen, hdrains⟩ := encoderStep_one_byte hwf hfin h
    rwa [hlen]

/-! ## What the selected step answers -/

/-- On a live encoder the step `enc.state` selects answers its production, and all else stays (R76, R177). -/
theorem exec_selectedStep_of_ok {s : State} (hdead : s.enc.dead = false) {t : EncState} (hs : s.enc.state = t)
    {p : Production} (hp : encoderStep s.enc = .ok p) :
    exec (selectedStep t) s = .next { s with enc := p.enc, ports := p.response.2 } := by
  rw [← hs, exec_selectedStep]
  exact congrArg _ (onEncoder_of_effect hdead (producing_ok hp))

/-- `ChainPull1` on an encoder that holds a byte (R162): the byte, one byte consumed, and what is left. -/
theorem encoder_pull1_consumes {e : Encoder} (hwf : e.mem.wf = true) {b : Byte} {r : List Byte}
    (h : e.mem.rest = b :: r) :
    ∃ m k, consumes e.mem 1 m k ∧ e.pull1 = .ok (b, e.withMemory m k, e.releases k) ∧ m.rest = r := by
  obtain ⟨m, k, hpull, hrest, hw, hchain, hle⟩ := encoder_pull1_of_rest hwf h
  exact ⟨m, k, ⟨by rw [hrest, h]; rfl, hw, hchain, hle⟩, hpull, hrest⟩

/-! ## The statements -/

/-- Settles O29: the step reads nothing but the tag. -/
theorem zfbEmitsTheEmptyChunk : Obligations.ZfbEmitsTheEmptyChunk := by
  intro s hdead hs
  exact exec_selectedStep_of_ok hdead hs (encoderStep_zfb hs)

/-- Settles O30: off a zero the distance is known; on a zero the byte there is consumed and the rest is probed. -/
theorem zcEmitsTheCodeOfTheNextChunk : Obligations.ZcEmitsTheCodeOfTheNextChunk := by
  intro s n hdead hs
  have hstep := encoderStep_zc hs
  refine ⟨fun hn => ?_, ?_⟩
  · exact exec_selectedStep_of_ok hdead hs (hstep.trans (stepZc_pos_eq_emitCode hn s.enc))
  · rintro rfl b r hwf hrest
    obtain ⟨m, k, hcons, hpull, rfl⟩ := encoder_pull1_consumes hwf hrest
    exact ⟨m, k, hcons, exec_selectedStep_of_ok hdead hs (hstep.trans (stepZc_zero_eq_emitCode hpull))⟩

/-- Settles O31: the byte pulled is the byte emitted. -/
theorem zdEmitsAPayloadByteAndReturnsThroughPost : Obligations.ZdEmitsAPayloadByteAndReturnsThroughPost := by
  intro s dataLeft nzo post b r hdead hs hwf hrest
  obtain ⟨m, k, hcons, hpull, -⟩ := encoder_pull1_consumes hwf hrest
  have hstep := (encoderStep_zd hs).trans (stepZd_ok hpull dataLeft post nzo)
  exact ⟨m, k, hcons, exec_selectedStep_of_ok hdead hs hstep⟩

/-- Settles O32: the tail length alone names the row of the table. -/
theorem nzcEmitsTheCodeOfTheTail : Obligations.NzcEmitsTheCodeOfTheTail := by
  intro s tail hdead hs
  exact exec_selectedStep_of_ok hdead hs ((encoderStep_nzc hs).trans (stepNzc_eq_emitCode tail s.enc))

/-- Settles O33: the byte pulled is the byte emitted; a full chunk goes to `NZC` whatever remains (C1). -/
theorem nzdEmitsAPayloadByteOfTheTail : Obligations.NzdEmitsAPayloadByteOfTheTail := by
  intro s tail dataLeft full b r hdead hs hwf hrest
  obtain ⟨m, k, hcons, hpull, -⟩ := encoder_pull1_consumes hwf hrest
  have hstep := (encoderStep_nzd hs).trans (stepNzd_ok hpull tail dataLeft full)
  exact ⟨m, k, hcons, exec_selectedStep_of_ok hdead hs hstep⟩

/-- Settles O34: the step reads nothing but the tag. -/
theorem fzEmitsTheTerminator : Obligations.FzEmitsTheTerminator := by
  intro s hdead hs
  exact exec_selectedStep_of_ok hdead hs (encoderStep_fz hs)

/-- Settles O35: `FIN` has no successor and no effect. -/
theorem finProducesNothing : Obligations.FinProducesNothing := by
  intro s hdead hs
  exact exec_selectedStep_of_ok hdead hs (encoderStep_fin hs)

/-- Settles O37: a step is one emitted byte, after at most one `ChainPull1()`. -/
theorem eachStepEmitsExactlyOneByte : Obligations.EachStepEmitsExactlyOneByte := by
  intro e p hwf hfin hp
  obtain ⟨hlen, n, hn, k, hdrains⟩ := encoderStep_one_byte hwf hfin hp
  exact ⟨hlen, n, k, hn, hdrains⟩

end Sys2Proof.Safety
end

section
/-! # The encoder's host operations (R175, R176, R187, R188, R190): what each answers from a live encoder, in full -/

namespace Sys2Proof.Safety

open Sys2Proof.Machine

/-! ## START (R175) -/

/-- START on an encoder that owns nothing writes every register from the chain (R44). -/
theorem encStart_of_not_owned (chain : Chain) {e : Encoder} (h : e.life ≠ .owned) :
    encStart chain e =
      .ok ({ life := .owned, state := firstState (probe chain.flatten), mem := (Memory.load chain).1,
             released := (Memory.load chain).2, dead := e.dead },
           { Ports.idle with rel := List.range (Memory.load chain).2 }) := by
  rw [encStart, if_neg h, peek_eq_probe, load_rest, List.range_eq_range']

/-- Settles O38: the first state is `firstState` of the probe, and loading consumes nothing. -/
theorem startOwnsTheChainAndProbes : Obligations.StartOwnsTheChainAndProbes := by
  intro s chain hdead hlife
  have heffect := encStart_of_not_owned chain hlife
  rw [hdead] at heffect
  exact ⟨_, _, load_consumes chain, settle_zero_off chain, settle_zero_empty chain,
    congrArg _ (onEncoder_of_effect hdead heffect)⟩

/-! ## PULL (R176) -/

/-- In `FIN` a PULL on an encoder that was started runs no step (R176 (d)). -/
theorem encPull_fin (max : Nat) {e : Encoder} (hlife : e.life ≠ .unstarted) (hfin : e.state = .fin) :
    encPull max e = .ok { enc := e, bytes := [], rel := [] } := by
  cases hl : e.life with
  | unstarted => exact absurd hl hlife
  | owned => simp only [encPull, hl, pullLoop_fin hfin]
  | disposed => simp only [encPull, hl, if_pos hfin, pullLoop_fin hfin]

theorem encPull_owned (max : Nat) {e : Encoder} (h : e.life = .owned) : encPull max e = pullLoop max e := by
  simp only [encPull, h]

theorem encPull_unstarted (max : Nat) {e : Encoder} (h : e.life = .unstarted) :
    encPull max e = .error .notStarted := by
  simp only [encPull, h]

theorem encPull_disposed (max : Nat) {e : Encoder} (h : e.life = .disposed) (hfin : e.state ≠ .fin) :
    encPull max e = .error .useAfterDispose := by
  simp only [encPull, h, if_neg hfin]

/-- A loop of one step is STEP, in `FIN` and for a step that faults as well (R191). -/
theorem pullLoop_one (e : Encoder) : pullLoop 1 e = encoderStep e := by
  by_cases hfin : e.state = .fin
  · rw [pullLoop_fin hfin, encoderStep_fin hfin, stepFin]
  · cases hp : encoderStep e with
    | error f => exact pullLoop_succ_error hfin hp 0
    | ok p => rw [pullLoop_succ hfin hp, pullLoop_zero]; simp only [List.append_nil]

/-- The loop of PULL drains no more bytes than it returns (R191). -/
theorem pullLoop_drains_le (max : Nat) {e : Encoder} (hwf : e.mem.wf = true) {q : Production}
    (h : pullLoop max e = .ok q) : ∃ n, n ≤ q.bytes.length ∧ drains n e q.enc q.rel := by
  refine pullLoop_induction (P := fun e q => e.mem.wf = true → ∃ n, n ≤ q.bytes.length ∧ drains n e q.enc q.rel)
    ?_ ?_ max h hwf
  · exact fun e hwf => ⟨0, Nat.le_refl 0, drains_zero hwf rfl rfl⟩
  · intro e p q hp ih hwf
    obtain ⟨a, hale, ha⟩ := encoderStep_drains_le hwf hp
    obtain ⟨b, hble, hb⟩ := ih (drains_wf ha)
    exact ⟨a + b, by rw [List.length_append]; exact Nat.add_le_add hale hble, drains_trans ha hb⟩

/-- The loop of PULL on a live owned encoder returns at most `max` bytes, fewer only at the end of the frame, and a frame
that ends in it leaves nothing held. -/
theorem pullLoop_liveOwned (max : Nat) {e : Encoder} (h : liveOwned e) :
    ∃ q, pullLoop max e = .ok q ∧ q.enc.life = e.life ∧ q.enc.dead = e.dead ∧ q.bytes.length ≤ max ∧
      (q.bytes.length < max → q.enc.state = .fin) ∧
      (e.state ≠ .fin → q.enc.state = .fin → q.enc.mem = Memory.empty) := by
  by_cases hfin : e.state = .fin
  · exact ⟨_, pullLoop_fin hfin max, rfl, rfl, Nat.zero_le max, fun _ => hfin, fun hne => absurd hfin hne⟩
  · obtain ⟨q, hq, hbytes, hmid⟩ := pullLoop_midFrame max ⟨h, rfl, fun hf => absurd hf hfin⟩
    have hlen : q.bytes.length ≤ max := by rw [hbytes]; exact List.length_take_le max _
    have hend : q.bytes.length < max → q.enc.state = .fin := by
      intro hshort
      rw [hbytes, List.length_take] at hshort
      rw [List.drop_eq_nil_of_le (by omega)] at hmid
      exact (midFrame_nil hmid).1
    obtain ⟨hdead, hlife, -⟩ := h
    obtain ⟨⟨hqdead, hqlife, -⟩, -, hqempty⟩ := hmid
    exact ⟨q, hq, hqlife.trans hlife.symm, hqdead.trans hdead.symm, hlen, hend, fun _ => hqempty⟩

/-- Registers with the lifecycle and the dead bit of before are those of before with the others written. -/
theorem encoder_eq_of_keeps {e e' : Encoder} (hlife : e'.life = e.life) (hdead : e'.dead = e.dead) :
    e' = { e with state := e'.state, mem := e'.mem, released := e'.released } := by
  rw [← hlife, ← hdead]

/-- Settles O40: the loop takes its bytes from the front of the frame still to come, which ends in `FIN` with nothing
held. -/
theorem pullCompletesOnAnOwnedEncoder : Obligations.PullCompletesOnAnOwnedEncoder := by
  intro s max hdead hlife hok
  have hown := (encoderOk_owned_iff hlife).mp hok
  obtain ⟨q, hq, hqlife, hqdead, hlen, hend, hempty⟩ := pullLoop_liveOwned max ⟨hdead, hlife, hown⟩
  obtain ⟨n, hn, k, hcons, hreleased, hrel⟩ := pullLoop_drains_le max hown.1 hq
  refine ⟨q.enc.state, q.enc.mem, k, q.bytes, ⟨n, hn, hcons⟩, ?_, hlen, hend, hempty⟩
  rw [exec_pull_of_loop hdead hlife hq, ← hreleased, ← hrel, ← encoder_eq_of_keeps hqlife hqdead]
  rfl

/-- Settles O41: PULL(1) is a loop of one step, on a dead encoder and in a fault as well. -/
theorem pullOfOneIsOneStep : Obligations.PullOfOneIsOneStep := by
  intro s hlife
  have hstep : encPull 1 s.enc = encoderStep s.enc := (encPull_owned 1 hlife).trans (pullLoop_one s.enc)
  rw [exec_selectedStep]
  exact congrArg _ (onEncoder_congr (by simp only [producing, hstep]))

/-- PULL on a live encoder answers its production, and all else stays (R76). -/
theorem exec_pull_of_ok {max : Nat} {s : State} (hdead : s.enc.dead = false) {p : Production}
    (hp : encPull max s.enc = .ok p) : exec (.pull max) s = .next { s with enc := p.enc, ports := p.response.2 } :=
  congrArg _ (onEncoder_of_effect hdead (producing_ok hp))

/-- PULL in `FIN` (R176 (d), R186). -/
theorem exec_pull_fin (max : Nat) {s : State} (hdead : s.enc.dead = false) (hlife : s.enc.life ≠ .unstarted)
    (hfin : s.enc.state = .fin) :
    exec (.pull max) s = .next { s with ports := { Ports.idle with encBytes := some [] } } :=
  exec_pull_of_ok hdead (encPull_fin max hlife hfin)

/-- Settles O42: in both cases the loop runs no step. -/
theorem pullOfNothingAndPullInFinChangeNothing : Obligations.PullOfNothingAndPullInFinChangeNothing := by
  intro s max hdead hlife
  refine ⟨exec_pull_fin max hdead hlife, fun howned => ?_⟩
  exact exec_pull_of_ok hdead ((encPull_owned 0 howned).trans (pullLoop_zero s.enc))

/-! ## The lifecycle faults (R190) -/

/-- Settles O44: the lifecycle check stands in front of everything else the operation does. -/
theorem lifecycleFaultsKillTheEncoder : Obligations.LifecycleFaultsKillTheEncoder := by
  intro s max chain hdead
  refine ⟨fun hlife => ?_, fun hlife hfin => ?_, fun hlife => ?_⟩
  · exact congrArg _ (onEncoder_of_fault hdead (producing_error (encPull_unstarted max hlife)))
  · exact congrArg _ (onEncoder_of_fault hdead (producing_error (encPull_disposed max hlife hfin)))
  · exact congrArg _ (onEncoder_of_fault hdead (f := encStart chain) (if_pos hlife))

/-! ## ABORT (R187) and DISPOSE (R188) -/

/-- Settles O45: ABORT leaves `FIN`, in which a PULL runs no step. -/
theorem abortForcesFinAndKeepsTheChain : Obligations.AbortForcesFinAndKeepsTheChain := by
  intro s max hdead
  have habort : exec .abort s = .next { s with enc := { s.enc with state := .fin }, ports := Ports.idle } :=
    congrArg _ (onEncoder_of_effect hdead (f := encAbort) rfl)
  refine ⟨habort, fun hlife => ?_⟩
  have hpull := exec_pull_fin max (s := s.answerEnc (s.enc.goto .fin) Ports.idle) hdead hlife rfl
  exact issue_cons_of_next habort (issue_cons_of_next hpull (issue_nil _))

/-- DISPOSE outside `Owned` does nothing. -/
theorem exec_dispose_of_not_owned {s : State} (hdead : s.enc.dead = false) (hlife : s.enc.life ≠ .owned) :
    exec .dispose s = .next { s with ports := Ports.idle } :=
  congrArg _ (onEncoder_of_effect hdead (f := encDispose) (if_neg hlife))

/-- DISPOSE in `Owned` gives every retained segment back. -/
theorem exec_dispose_of_owned {s : State} (hdead : s.enc.dead = false) (hlife : s.enc.life = .owned) :
    exec .dispose s = .next { s with
      enc := { s.enc with life := .disposed, mem := { chain := [], off := 0 },
                          released := s.enc.released + s.enc.mem.chain.length },
      ports := { Ports.idle with rel := List.range' s.enc.released s.enc.mem.chain.length } } :=
  congrArg _ (onEncoder_of_effect hdead (f := encDispose) (if_pos hlife))

/-- Settles O46: whatever the first DISPOSE found, the encoder it leaves is alive and owns nothing. -/
theorem disposeReleasesWhatIsRetained : Obligations.DisposeReleasesWhatIsRetained := by
  intro s hdead
  refine ⟨exec_dispose_of_owned hdead, exec_dispose_of_not_owned hdead, fun t ht => ?_⟩
  by_cases hlife : s.enc.life = .owned
  · rw [exec_dispose_of_owned hdead hlife] at ht
    cases ht
    exact exec_dispose_of_not_owned hdead nofun
  · rw [exec_dispose_of_not_owned hdead hlife] at ht
    cases ht
    exact exec_dispose_of_not_owned hdead hlife

/-! ## The host's requests (R166) -/

/-- Settles O55: a request of the host interface decodes to one of the six operations, and each of them answers a next
state from every state. -/
theorem hostRequestsNeverStopTheMachine : Obligations.HostRequestsNeverStopTheMachine := by
  intro s hhost
  cases hp : s.pending with
  | nil => exact ⟨_, step_nil hp⟩
  | cons input rest =>
    cases input with
    | hardwareReset a => exact ⟨_, step_hardwareReset hp⟩
    | request w =>
      have hw : w.isHost = true := hhost (.request w) (by simp [hp])
      obtain ⟨i, hdec, hi⟩ := decode_of_isHost hw
      rw [step_request hp hdec]
      exact exec_hostOperation_next hi { s with pending := rest }

end Sys2Proof.Safety
end

section
/-! # The exceptions (R210 to R215): a dead encoder refuses every operation, and a host operation takes exactly the faults
of the lifecycle table (R190) -/

namespace Sys2Proof.Safety

open Sys2Proof.Machine

/-! ## The dead encoder (R47, R214) -/

/-- The encoder's host operations never refuse: each is its effect on the encoder's registers. -/
theorem exec_encoderOperation {i : Instr} (h : encoderOperation i = true) (s : State) :
    exec i s = .next (onEncoder (encoderEffect i) s) := by
  cases i with
  | start _ | pull _ | abort | dispose => rfl
  | term | zero | runz _ | runf | lit _ | illz | feed _ | reset | peek | cpull1 | cpull _ | zfb | zc | zd | nzc | nzd
  | fz | fin => cases h

/-- Settles O47: the operations named run on the encoder, where the dead bit stands in front of their effect; any other
instruction acts on the decoder or is refused. -/
theorem deadEncoderRefusesEveryOperation : Obligations.DeadEncoderRefusesEveryOperation := by
  intro s i hdead
  constructor
  · intro hi
    have hrun : ∃ f, exec i s = .next (onEncoder f s) := by
      rcases hi with hop | rfl | rfl | ⟨n, rfl⟩ | rfl
      · exact ⟨_, exec_encoderOperation hop s⟩
      · exact ⟨cursorPeek, rfl⟩
      · exact ⟨cursorPull1, rfl⟩
      · exact ⟨cursorPull n, rfl⟩
      · exact ⟨_, exec_selectedStep s⟩
    obtain ⟨f, hf⟩ := hrun
    rw [hf, onEncoder_dead hdead, State.answerEnc]
  · intro t h
    cases hacts : actsOnDecoder i with
    | true => rw [exec_decoder hacts h, onDecoder_enc]
    | false => rw [exec_encoder hacts h, onEncoder_dead hdead, answerEnc_enc]

/-! ## Which faults occur (R190, R215) -/

/-- FEED takes no fault (R215): its results are no faults (R103). -/
theorem feedByte_fault (b : Byte) (d : Decoder) : (feedByte b d).2.fault = none := by
  unfold feedByte
  split
  · split
    · rfl
    · split
      · rfl
      · split <;> rfl
  · split <;> rfl
  · rfl

/-- The decoder's host operations take no fault (R215). -/
theorem exec_decoderOperation_fault {i : Instr} (hi : decoderOperation i = true) {s t : State}
    (h : exec i s = .next t) : t.ports.fault = none := by
  cases i with
  | feed b => cases h; exact feedByte_fault b s.dec
  | reset => cases h; rfl
  | term | zero | runz _ | runf | lit _ | illz | start _ | pull _ | abort | dispose | peek | cpull1 | cpull _ | zfb | zc
  | zd | nzc | nzd | fz | fin => cases hi

/-- An encoder operation that completes records no fault. -/
theorem encoderOperation_ok_fault {i : Instr} (hi : encoderOperation i = true) {e e' : Encoder} {p : Ports}
    (h : encoderEffect i e = .ok (e', p)) : p.fault = none := by
  cases i with
  | start chain =>
    simp only [encoderEffect, encStart] at h
    split at h <;> cases h
    rfl
  | pull max =>
    obtain ⟨q, -, hres⟩ := producing_eq_ok h
    cases hres
    rfl
  | abort => cases h; rfl
  | dispose =>
    simp only [encoderEffect, encDispose] at h
    split at h <;> cases h <;> rfl
  | term | zero | runz _ | runf | lit _ | illz | feed _ | reset | peek | cpull1 | cpull _ | zfb | zc | zd | nzc | nzd
  | fz | fin => cases hi

/-- The fault recorded is the one the operation failed with, on a live encoder (R214). -/
theorem onEncoder_fault_iff {g : Encoder → Except Fault (Encoder × Ports)} {s : State}
    (hg : ∀ e p, g s.enc = .ok (e, p) → p.fault = none) (f : Fault) :
    (onEncoder g s).ports.fault = some f ↔ s.enc.dead = false ∧ g s.enc = .error f := by
  rcases onEncoder_cases g s with ⟨hdead, heq⟩ | ⟨hdead, f', herr, heq⟩ | ⟨hdead, e, p, hok, heq⟩
  · simp [heq, hdead]
  · simp [heq, hdead, herr]
  · simp [heq, hok, hg e p hok]

/-- Operation `i` from registers `e` meets the cell of the lifecycle table that faults with `f` (R190). -/
def faultCell (f : Fault) (i : Instr) (e : Encoder) : Prop :=
  (f = .notStarted ∧ (∃ max, i = .pull max) ∧ e.life = .unstarted) ∨
  (f = .useAfterDispose ∧ (∃ max, i = .pull max) ∧ e.life = .disposed ∧ e.state ≠ .fin) ∨
  (f = .startWhileOwned ∧ (∃ chain, i = .start chain) ∧ e.life = .owned)

/-- No cell of the table is the decoder's. -/
theorem not_faultCell_of_decoderOperation {i : Instr} (hi : decoderOperation i = true) (f : Fault) (e : Encoder) :
    ¬ faultCell f i e := by
  rintro (⟨-, ⟨_, rfl⟩, -⟩ | ⟨-, ⟨_, rfl⟩, -⟩ | ⟨-, ⟨_, rfl⟩, -⟩) <;> cases hi

theorem encStart_error_iff (chain : Chain) (e : Encoder) (f : Fault) :
    encStart chain e = .error f ↔ faultCell f (.start chain) e := by
  by_cases hlife : e.life = .owned <;> simp [encStart, faultCell, hlife, eq_comm]

/-- Within the invariant PULL's loop completes, so PULL faults by its lifecycle check only. -/
theorem encPull_error_iff (max : Nat) {e : Encoder} (h : encoderOk e) (f : Fault) :
    producing (encPull max) e = .error f ↔ faultCell f (.pull max) e := by
  cases hlife : e.life with
  | unstarted =>
    rw [producing_error (encPull_unstarted max hlife)]
    simp [faultCell, hlife, eq_comm]
  | owned =>
    obtain ⟨q, hq, -⟩ := pullLoop_ownedOk max ((encoderOk_owned_iff hlife).mp h)
    rw [producing_ok ((encPull_owned max hlife).trans hq)]
    simp [faultCell, hlife]
  | disposed =>
    by_cases hfin : e.state = .fin
    · rw [producing_ok (encPull_fin max (by rw [hlife]; nofun) hfin)]
      simp [faultCell, hlife, hfin]
    · rw [producing_error (encPull_disposed max hlife hfin)]
      simp [faultCell, hlife, hfin, eq_comm]

/-- Within the invariant an encoder operation fails exactly in the cells of the table. -/
theorem encoderOperation_error_iff {i : Instr} (hi : encoderOperation i = true) {e : Encoder} (h : encoderOk e)
    (f : Fault) : encoderEffect i e = .error f ↔ faultCell f i e := by
  cases i with
  | start chain => exact encStart_error_iff chain e f
  | pull max => exact encPull_error_iff max h f
  | abort => simp [encoderEffect, encAbort, faultCell]
  | dispose => by_cases hlife : e.life = .owned <;> simp [encoderEffect, encDispose, faultCell, hlife]
  | term | zero | runz _ | runf | lit _ | illz | feed _ | reset | peek | cpull1 | cpull _ | zfb | zc | zd | nzc | nzd
  | fz | fin => cases hi

/-- Settles O56: the decoder takes no fault, and an encoder operation fails by its lifecycle check alone, since no step of
PULL's loop runs out of payload within the invariant. -/
theorem faultsOccurExactlyInTheLifecycleCells : Obligations.FaultsOccurExactlyInTheLifecycleCells := by
  intro i s t f hi hok h
  change t.ports.fault = some f ↔ s.enc.dead = false ∧ faultCell f i s.enc
  rcases Bool.or_eq_true_iff.mp hi with hdec | henc
  · simp [exec_decoderOperation_fault hdec h, not_faultCell_of_decoderOperation hdec]
  · rw [exec_encoderOperation henc] at h
    cases h
    rw [onEncoder_fault_iff fun _ _ => encoderOperation_ok_fault henc, encoderOperation_error_iff henc hok.2]

end Sys2Proof.Safety
end

section
/-! # No value of an earlier frame leaks into a frame (R243) -/

namespace Sys2Proof.Safety

open Sys2Proof.Machine

/-- START on a live encoder that owns nothing: the encoder's registers and the ports it leaves name the chain and
nothing of the state before (R44, R175). -/
theorem exec_start_of_not_owned (chain : Chain) {s : State} (hdead : s.enc.dead = false) (hlife : s.enc.life ≠ .owned) :
    exec (.start chain) s = .next { s with
      enc := { life := .owned, state := firstState (probe chain.flatten), mem := (Memory.load chain).1,
               released := (Memory.load chain).2, dead := false },
      ports := { Ports.idle with rel := List.range (Memory.load chain).2 } } := by
  have heffect := encStart_of_not_owned chain hlife
  rw [hdead] at heffect
  exact congrArg _ (onEncoder_of_effect hdead heffect)

/-- Settles O39: from either state START leaves the registers and the ports that the chain alone names. -/
theorem startForgetsEarlierFrames : Obligations.StartForgetsEarlierFrames := by
  intro s s' t t' chain hdead hdead' hlife hlife' h h'
  rw [exec_start_of_not_owned chain hdead hlife] at h
  rw [exec_start_of_not_owned chain hdead' hlife'] at h'
  cases h
  cases h'
  exact ⟨rfl, rfl⟩

end Sys2Proof.Safety
end

section
/-! # The encodings (R91 to R96, R98, R101, R102, R105): what a word decodes to, and that `encode` gives a word for it -/

namespace Sys2Proof.Safety

open Sys2Proof.Machine

/-! ## The two maps of the byte values off their special values (R94, R95) -/

theorem decodeWireCode_of_run {b : Byte} (h0 : b ≠ 0x00#8) (h1 : b ≠ 0x01#8) (h255 : b ≠ 0xFF#8) :
    decodeWireCode b = .runz (dataCount b) := by
  rw [decodeWireCode, if_neg h0, if_neg h1, if_neg h255]

theorem decodeWireData_of_ne_zero {b : Byte} (h : b ≠ 0x00#8) : decodeWireData b = .lit b := if_neg h

/-- The code byte of a run of 1 to 253 data bytes is none of the special values (R94, R106). -/
theorem decodeWireCode_codeByte {n : Nat} (h1 : 1 ≤ n) (h2 : n ≤ 253) : decodeWireCode (codeByte n) = .runz n := by
  have hcap : n ≤ 254 := Nat.le_succ_of_le h2
  rw [decodeWireCode_of_run (codeByte_ne_zero hcap) (codeByte_ne_one hcap h1) (codeByte_ne_full h2),
    dataCount_codeByte hcap]

/-! ## The statements -/

/-- Settles O1: an operand comes back because it fits its field, the data count of RUNZ because its code byte is none of
the special values. -/
theorem decodeOfEncodeIsTheInstruction : Obligations.DecodeOfEncodeIsTheInstruction := by
  intro i hwf
  cases i with
  | runz n =>
    simp only [Instr.wellFormed, Bool.and_eq_true, decide_eq_true_eq] at hwf
    exact congrArg Except.ok (decodeWireCode_codeByte hwf.1 hwf.2)
  | lit d =>
    simp only [Instr.wellFormed, decide_eq_true_eq] at hwf
    exact congrArg Except.ok (decodeWireData_of_ne_zero hwf)
  | pull max =>
    simp only [Instr.wellFormed, decide_eq_true_eq] at hwf
    exact congrArg (Except.ok ∘ Instr.pull) (counter_load hwf)
  | term | zero | runf | illz | feed _ | reset | start _ | abort | dispose | peek | cpull1 | cpull _ | zfb | zc | zd
    | nzc | nzd | fz | fin => rfl

/-- In code position every byte decodes to a well-formed instruction, which encodes back to it (R94, R98). -/
theorem encode_decodeWireCode (b : Byte) :
    encode (decodeWireCode b) = .wireCode b ∧ (decodeWireCode b).wellFormed = true := by
  by_cases h0 : b = 0x00#8
  · subst h0; exact ⟨rfl, rfl⟩
  by_cases h1 : b = 0x01#8
  · subst h1; exact ⟨rfl, rfl⟩
  by_cases h255 : b = 0xFF#8
  · subst h255; exact ⟨rfl, rfl⟩
  rw [decodeWireCode_of_run h0 h1 h255]
  exact ⟨congrArg Slot.wireCode (codeByte_dataCount h0), by simpa [Instr.wellFormed] using dataCount_bounds h0 h1 h255⟩

/-- In data position every byte decodes to a well-formed instruction, which encodes back to it (R95, R98). -/
theorem encode_decodeWireData (b : Byte) :
    encode (decodeWireData b) = .wireData b ∧ (decodeWireData b).wellFormed = true := by
  by_cases h0 : b = 0x00#8
  · subst h0; exact ⟨rfl, rfl⟩
  rw [decodeWireData_of_ne_zero h0]
  exact ⟨rfl, decide_eq_true h0⟩

/-- Settles O2: the special values by their rows, every other byte by its count or as itself. -/
theorem everyByteIsOneInstructionInEachPosition : Obligations.EveryByteIsOneInstructionInEachPosition := by
  intro b
  obtain ⟨hcode, hcodeOk⟩ := encode_decodeWireCode b
  exact ⟨hcode, hcodeOk, encode_decodeWireData b⟩

/-- Settles O3: each word evaluates to the instruction of its row. -/
theorem wordsOfTheTablesDecode : Obligations.WordsOfTheTablesDecode := by
  unfold Obligations.WordsOfTheTablesDecode
  decide

end Sys2Proof.Safety
end

section
/-! # The wire instructions and FEED (R94 to R96, R140, R150, R151): a wire byte presented in its position is FEED of
that byte, and the transition table of FEED in full -/

namespace Sys2Proof.Safety

open Sys2Proof.Machine

/-! ## A wire byte in a position is FEED of it there (R94, R95, R148) -/

/-- In code position only the effect on a decoder in `Code` counts. -/
theorem inCodePosition_congr {f g : Decoder → Decoder × Ports} {s : State}
    (h : s.dec.state = .code → f s.dec = g s.dec) : inCodePosition f s = inCodePosition g s := by
  cases hs : s.dec.state with
  | code => simp only [inCodePosition, hs, onDecoder, h hs]
  | data | finished => simp only [inCodePosition, hs]

/-- In data position only the effect on a decoder in `Data` counts. -/
theorem inDataPosition_congr {f g : Decoder → Decoder × Ports} {s : State}
    (h : s.dec.state = .data → f s.dec = g s.dec) : inDataPosition f s = inDataPosition g s := by
  cases hs : s.dec.state with
  | data => simp only [inDataPosition, hs, onDecoder, h hs]
  | code | finished => simp only [inDataPosition, hs]

/-- The instruction of a byte in code position has there the effect of FEED (R94, R140). -/
theorem exec_decodeWireCode (b : Byte) (s : State) : exec (decodeWireCode b) s = inCodePosition (feedByte b) s := by
  unfold decodeWireCode
  split
  case isTrue h0 => exact inCodePosition_congr fun hs => by simp [feedByte, hs, h0]
  case isFalse h0 =>
    split
    case isTrue h1 => exact inCodePosition_congr fun hs => by simp [feedByte, hs, h1]
    case isFalse h1 =>
      split
      case isTrue h255 => exact inCodePosition_congr fun hs => by simp [feedByte, hs, h255]
      case isFalse h255 =>
        exact inCodePosition_congr fun hs => by simp only [feedByte, hs, if_neg h0, if_neg h1, if_neg h255]

/-- The instruction of a byte in data position has there the effect of FEED (R95, R140). -/
theorem exec_decodeWireData (b : Byte) (s : State) : exec (decodeWireData b) s = inDataPosition (feedByte b) s := by
  unfold decodeWireData
  split
  case isTrue h0 => exact inDataPosition_congr fun hs => by simp [feedByte, hs, h0]
  case isFalse h0 => exact inDataPosition_congr fun hs => by simp only [feedByte, hs, if_neg h0]

theorem exec_decodeWireCode_of_code (b : Byte) {s : State} (hs : s.dec.state = .code) :
    exec (decodeWireCode b) s = exec (.feed b) s := by
  rw [exec_decodeWireCode, exec_feed, inCodePosition, hs]

theorem exec_decodeWireData_of_data (b : Byte) {s : State} (hs : s.dec.state = .data) :
    exec (decodeWireData b) s = exec (.feed b) s := by
  rw [exec_decodeWireData, exec_feed, inDataPosition, hs]

/-- Settles O18: a wire byte reads `dec.state` before anything else. -/
theorem wireInstructionInTheOtherPositionStops : Obligations.WireInstructionInTheOtherPositionStops := by
  refine fun s b => ⟨fun hs => ?_, fun hs => ?_⟩
  · rw [exec_decodeWireCode, inCodePosition, hs]
  · rw [exec_decodeWireData, inDataPosition, hs]

/-! ## The rows of the transition table (R150) -/

/-- What FEED answers, from its effect on the decoder's registers. -/
theorem exec_feed_of_effect {b : Byte} {s : State} {d : Decoder} {p : Ports} (h : feedByte b s.dec = (d, p)) :
    exec (.feed b) s = .next { s with dec := d, ports := p } :=
  congrArg _ (onDecoder_of_effect h)

/-- Settles O11: the owed zero is dropped with the flag. -/
theorem termCompletesTheFrame : Obligations.TermCompletesTheFrame := by
  intro s hs
  exact inCodePosition_of_effect (f := feedTerm) hs rfl

/-- Settles O16: ILLZ writes `dec.state` alone. -/
theorem illzRaisesUnexpectedZero : Obligations.IllzRaisesUnexpectedZero := by
  intro s hs
  exact inDataPosition_of_effect (f := feedIllz) hs rfl

/-- The row of `Code` (R150). -/
theorem feedByte_code_row (b : Byte) {d : Decoder} (hs : d.state = .code) :
    feedByte b d =
      (if b = 0x00#8 then { d with state := .finished, pendingZero := false }
       else if b = 0x01#8 then { d with pendingZero := true }
       else { state := .data, remaining := b - 0x01#8, pendingZero := decide (b ≠ 0xFF#8) },
       if b = 0x00#8 then { Ports.idle with decRes := some .frameComplete }
       else { Ports.idle with
         decRes := some .consumed, decOut := if d.pendingZero then some 0x00#8 else none }) := by
  by_cases h0 : b = 0x00#8
  · rw [h0, feedByte_code_zero hs]
    rfl
  · rw [if_neg h0, if_neg h0, feedByte_code h0 hs]
    by_cases h1 : b = 0x01#8
    · simp [h1, hs, zeroOwedBy, feedResponse]
    · simp [h1, dataCount_load h0, zeroOwedBy, feedResponse]

/-- The row of `Data` (R150). -/
theorem feedByte_data_row (b : Byte) {d : Decoder} (hs : d.state = .data) :
    feedByte b d =
      (if b = 0x00#8 then { d with state := .finished }
       else { d with state := if d.remaining - 1 = 0 then .code else .data, remaining := d.remaining - 1 },
       if b = 0x00#8 then { Ports.idle with decRes := some .unexpectedZero }
       else { Ports.idle with decRes := some .consumed, decOut := some b }) := by
  by_cases h0 : b = 0x00#8
  · rw [h0, feedByte_data_zero hs]
    rfl
  · rw [if_neg h0, if_neg h0, feedByte_data h0 hs, feedLit_eq b hs, feedResponse]

/-- Settles O19: FEED is its row of the table for every state of the decoder. -/
theorem feedFollowsTheTransitionTable : Obligations.FeedFollowsTheTransitionTable := by
  intro s b
  exact ⟨fun hs => exec_feed_of_effect (feedByte_code_row b hs), fun hs => exec_feed_of_effect (feedByte_data_row b hs),
    fun hs => exec_feed_of_effect (feedByte_finished hs b)⟩

/-! ## Which results and which output bytes FEED gives -/

/-- `ProtocolError` is the answer in `Finished` and nowhere else (R148, R212). -/
theorem feedByte_protocolError_iff (b : Byte) (d : Decoder) :
    (feedByte b d).2.decRes = some .protocolError ↔ d.state = .finished := by
  cases hs : d.state with
  | code => rw [feedByte_code_row b hs]; by_cases hb : b = 0x00#8 <;> simp [hb]
  | data => rw [feedByte_data_row b hs]; by_cases hb : b = 0x00#8 <;> simp [hb]
  | finished => simp [feedByte_finished hs, feedFinished]

/-- Settles O17: in `Finished` a byte is refused by FEED and in either position alike. -/
theorem finishedDecoderAnswersProtocolError : Obligations.FinishedDecoderAnswersProtocolError := by
  refine fun s b => ⟨fun hs => ?_, fun t h hres => ?_⟩
  · have hfeed := exec_feed_of_effect (feedByte_finished hs b)
    refine ⟨hfeed, ?_, ?_⟩
    · rw [exec_decodeWireCode, inCodePosition, hs]
      rfl
    · rw [exec_decodeWireData, inDataPosition, hs]
      rfl
  · cases h
    exact (feedByte_protocolError_iff b s.dec).mp hres

/-- Where an output byte of FEED comes from (R151): it is the owed zero, or the literal fed. -/
theorem feedByte_decOut {b d : Byte} {r : Decoder} (h : (feedByte b r).2.decOut = some d) :
    (feedByte b r).2.decRes = some .consumed ∧ b ≠ 0x00#8 ∧
      (r.state = .code ∧ r.pendingZero = true ∧ d = 0x00#8 ∨ r.state = .data ∧ d = b) := by
  cases hs : r.state with
  | code =>
    rw [feedByte_code_row b hs] at h ⊢
    by_cases hb : b = 0x00#8
    · simp [hb] at h
    · simp only [if_neg hb, Option.ite_none_right_eq_some] at h ⊢
      obtain ⟨howed, hd⟩ := h
      exact ⟨trivial, hb, .inl ⟨trivial, howed, (Option.some.inj hd).symm⟩⟩
  | data =>
    rw [feedByte_data_row b hs] at h ⊢
    by_cases hb : b = 0x00#8
    · simp [hb] at h
    · simp only [if_neg hb] at h ⊢
      exact ⟨trivial, hb, .inr ⟨trivial, (Option.some.inj h).symm⟩⟩
  | finished =>
    rw [feedByte_finished hs] at h
    cases h

/-- Settles O22: the owed zero is zero and the literal is not. -/
theorem outputBytesComeFromOwedZerosAndLiterals : Obligations.OutputBytesComeFromOwedZerosAndLiterals := by
  intro s t b d h hout
  cases h
  obtain ⟨hres, hb, ⟨hs, howed, hzero⟩ | ⟨hs, hlit⟩⟩ := feedByte_decOut hout
  · exact ⟨hres, fun _ => ⟨hs, howed, hb⟩, fun hd => absurd hzero hd⟩
  · exact ⟨hres, fun hd => absurd (hlit.symm.trans hd) hb, fun _ => ⟨hs, hlit⟩⟩

/-! ## The position along a stretch of wire bytes (R93, R96) -/

/-- The next `n` wire bytes are in data position: none in `Code`, the count of `dec.remaining` in `Data` (R93). -/
def dataAhead (n : Nat) (d : Decoder) : Prop :=
  match n with
  | 0 => d.state = .code
  | m + 1 => d.state = .data ∧ d.remaining.toNat = m + 1

theorem dataAhead_of_data {n : Nat} (hn : n ≠ 0) {d : Decoder} (hs : d.state = .data) (hrem : d.remaining.toNat = n) :
    dataAhead n d := by
  obtain ⟨m, rfl⟩ := Nat.exists_eq_succ_of_ne_zero hn
  exact ⟨hs, hrem⟩

/-- Only the code bytes `0x00` and `0x01` announce nothing (R94). -/
theorem dataCount_ne_zero {b : Byte} (h0 : b ≠ 0x00#8) (h1 : b ≠ 0x01#8) : dataCount b ≠ 0 := by
  by_cases h255 : b = 0xFF#8
  · subst h255
    decide
  · exact Nat.one_le_iff_ne_zero.mp (dataCount_bounds h0 h1 h255).1

/-- A code byte brings as many data bytes as it announces (R92, R134). -/
theorem dataAhead_feed_code {b : Byte} (hb : b ≠ 0x00#8) {d : Decoder} (h : dataAhead 0 d) :
    dataAhead (dataCount b) (feedByte b d).1 := by
  rw [feedByte_code hb h]
  by_cases h1 : b = 0x01#8
  · subst h1
    rfl
  · exact dataAhead_of_data (dataCount_ne_zero hb h1) (if_neg h1)
      ((congrArg BitVec.toNat (if_neg h1)).trans (counter_load (Nat.lt_of_le_of_lt (Nat.sub_le _ _) b.isLt)))

/-- A literal is one of the data bytes announced (R146). -/
theorem dataAhead_feed_data {b : Byte} (hb : b ≠ 0x00#8) {n : Nat} {d : Decoder} (h : dataAhead (n + 1) d) :
    dataAhead n (feedByte b d).1 := by
  obtain ⟨hs, hrem⟩ := h
  have hpos : 1 ≤ d.remaining.toNat := by omega
  rw [feedByte_data hb hs, feedLit_eq b hs]
  cases n with
  | zero => exact if_pos ((counter_ended_iff hpos).mpr hrem)
  | succ m =>
    refine ⟨if_neg ?_, ?_⟩
    · rw [counter_ended_iff hpos]
      omega
    · rw [counter_decrement hpos]
      omega

/-! ## Feeding a stretch of wire bytes -/

/-- Two sessions that begin with the same answer, and go on alike from it, are the same. -/
theorem issue_cons_congr {i j : Instr} {as bs : List Instr} {s t : State} (hi : exec i s = exec j s)
    (hj : exec j s = .next t) (h : issue as t = issue bs t) : issue (i :: as) s = issue (j :: bs) s := by
  rw [issue_cons (hi.trans hj), issue_cons hj, h]

/-- A stretch of wire bytes of which the first `n` are data runs as its bytes fed, the position following the counts. -/
theorem issue_decodeWireFrom {n : Nat} {f : List Byte} {s : State} (h : dataAhead n s.dec) :
    issue (decodeWireFrom n f) s = issue ((f.take (decodeWireFrom n f).length).map Instr.feed) s := by
  induction f generalizing n s with
  | nil => simp [decodeWireFrom]
  | cons b f ih =>
    cases n with
    | zero =>
      have hexec := exec_decodeWireCode_of_code b h
      by_cases hb : b = 0x00#8
      · subst hb
        exact issue_cons_congr hexec (exec_feed _ s) rfl
      · rw [decodeWireFrom, if_neg hb]
        exact issue_cons_congr hexec (exec_feed b s) (ih (dataAhead_feed_code hb h))
    | succ n =>
      have hexec := exec_decodeWireData_of_data b h.1
      by_cases hb : b = 0x00#8
      · subst hb
        exact issue_cons_congr hexec (exec_feed _ s) rfl
      · rw [decodeWireFrom, if_neg hb]
        exact issue_cons_congr hexec (exec_feed b s) (ih (dataAhead_feed_data hb h))

/-- Settles O4: in code position no data byte is ahead, and each byte fed moves the position as decoding does. -/
theorem feedingBytesRunsTheirInstructions : Obligations.FeedingBytesRunsTheirInstructions := by
  intro f s hs
  exact issue_decodeWireFrom (n := 0) hs

end Sys2Proof.Safety
end

section
/-! # What a frame delivers, complete or not (R123, R152): the decoder and `Dec` agree chunk by chunk -/

namespace Sys2Proof.Safety

open Sys2Proof.Machine

/-! ## The next chunk of any sequence of bytes (R123) -/

/-- No code byte announces more data bytes than the chunk cap (R7, R92). -/
theorem dataCount_le (c : Byte) : dataCount c ≤ 254 := Nat.sub_le_of_le_add (Nat.le_of_lt_succ c.isLt)

/-- Every code byte is the code of the chunk it announces (R92, R133). -/
theorem chunkCode_dataCount {c : Byte} (hc : c ≠ 0x00#8) : chunkCode (dataCount c) = c := by
  rw [chunkCode_eq_codeByte (dataCount_le c), codeByte_dataCount hc]

/-- What follows a code byte that announces `n` data bytes: a zero among them, too few of them, or all of them. -/
theorem chunk_cases (n : Nat) (f : List Byte) :
    (∃ u h, f = u ++ 0x00#8 :: h ∧ 0x00#8 ∉ u ∧ u.length < n) ∨
    (0x00#8 ∉ f ∧ f.length < n) ∨
    (∃ u h, f = u ++ h ∧ 0x00#8 ∉ u ∧ u.length = n) := by
  by_cases hmem : 0x00#8 ∈ f.take n
  · obtain ⟨u, v, htake, hu⟩ := List.eq_append_cons_of_mem hmem
    refine .inl ⟨u, v ++ f.drop n, ?_, hu, ?_⟩
    · rw [← List.cons_append, ← List.append_assoc, ← htake, List.take_append_drop]
    · have hlen : (f.take n).length ≤ n := List.length_take_le n f
      rw [htake, List.length_append, List.length_cons] at hlen
      omega
  · rcases Nat.lt_or_ge f.length n with hlt | hge
    · rw [List.take_of_length_le hlt.le] at hmem
      exact .inr (.inl ⟨hmem, hlt⟩)
    · exact .inr (.inr ⟨f.take n, f.drop n, (List.take_append_drop n f).symm, hmem, List.length_take_of_le hge⟩)

/-! ## `Dec` of a chunk that is broken off (R123) -/

/-- A zero among the data ends the decoding after the bytes before it. -/
theorem decFrom_zero_in_chunk {c : Byte} (hc : c ≠ 0x00#8) {u : List Byte} (hu : 0x00#8 ∉ u)
    (hlen : u.length < dataCount c) (owed : Bool) (h : List Byte) :
    decFrom owed (c :: (u ++ 0x00#8 :: h)) = .err (owedZero owed ++ u) := by
  obtain ⟨v, htake⟩ : ∃ v, (u ++ 0x00#8 :: h).take (dataCount c) = u ++ 0x00#8 :: v := by
    obtain ⟨k, hk⟩ := Nat.exists_eq_add_of_lt hlen
    exact ⟨h.take k, by rw [hk, Nat.add_assoc, List.take_length_add_append]; rfl⟩
  have hfree : zeroFreeLength (u ++ 0x00#8 :: v) = u.length := zeroFreeLength_append hu _
  rw [dataCount] at htake
  rw [decFrom, List.length_cons, decOn]
  simp only [if_neg hc, htake, hfree, List.take_left, List.length_append, List.length_cons]
  rw [if_pos (by omega)]
  rfl

/-- Data that ends before its count is delivered, and the decoding is incomplete. -/
theorem decFrom_short_chunk {c : Byte} (hc : c ≠ 0x00#8) {u : List Byte} (hu : 0x00#8 ∉ u)
    (hlen : u.length < dataCount c) (owed : Bool) : decFrom owed (c :: u) = .incomplete (owedZero owed ++ u) := by
  have htake : u.take (c.toNat - 1) = u := List.take_of_length_le hlen.le
  rw [decFrom, List.length_cons, decOn]
  simp only [if_neg hc, htake, zeroFreeLength_of_notMem hu, Nat.lt_irrefl, if_false]
  exact if_pos hlen

/-! ## Feeding a chunk that is broken off -/

/-- Data bytes, none of them zero and not more than announced, are delivered, and the rest is still ahead. -/
theorem feedsAll_data_of_dataAhead {u : List Byte} (hu : 0x00#8 ∉ u) {n : Nat} {s : State}
    (h : dataAhead (u.length + n) s.dec) : ∃ t, feedsAll .consumed u u s t ∧ dataAhead n t.dec := by
  induction u generalizing s with
  | nil => exact ⟨s, feedsAll_nil _ s, by simpa using h⟩
  | cons b u ih =>
    simp only [List.mem_cons, not_or] at hu
    obtain ⟨hb, hu⟩ := hu
    rw [List.length_cons, Nat.add_right_comm] at h
    have hfeed := feedByte_data (Ne.symm hb) h.1
    obtain ⟨t, ht, hahead⟩ := ih hu (s := onDecoder (feedByte b) s) (dataAhead_feed_data (Ne.symm hb) h)
    have hcons := feedsAll_cons (by rw [hfeed]; rfl) ht
    rw [hfeed] at hcons
    exact ⟨t, hcons, hahead⟩

/-- A code byte pays the owed zero (R142). -/
theorem feedByte_code_out {c : Byte} (hc : c ≠ 0x00#8) {owed : Bool} {d : Decoder} (h : betweenChunks owed d) :
    (feedByte c d).2.decRes = some .consumed ∧ (feedByte c d).2.decOut.toList = owedZero owed := by
  obtain ⟨hs, rfl⟩ := h
  rw [feedByte_code hc hs]
  cases d.pendingZero <;> exact ⟨rfl, rfl⟩

/-- A chunk broken off before its last byte leaves the decoder in data position. -/
theorem feedsAll_partial_chunk {c : Byte} (hc : c ≠ 0x00#8) {u : List Byte} (hu : 0x00#8 ∉ u)
    (hlen : u.length < dataCount c) {owed : Bool} {s : State} (h : betweenChunks owed s.dec) :
    ∃ t, feedsAll .consumed (c :: u) (owedZero owed ++ u) s t ∧ t.dec.state = .data := by
  obtain ⟨hres, hout⟩ := feedByte_code_out hc h
  obtain ⟨k, hk⟩ := Nat.exists_eq_add_of_lt hlen
  have hahead := dataAhead_feed_code hc (d := s.dec) h.1
  rw [hk, Nat.add_assoc] at hahead
  obtain ⟨t, ht, hdata, -⟩ := feedsAll_data_of_dataAhead hu (s := onDecoder (feedByte c) s) hahead
  rw [← hout]
  exact ⟨t, feedsAll_cons hres ht, hdata⟩

/-! ## The verdict (R152) -/

/-- Fed to the decoder from `s`, the sequence `f` gives the outcome `r`: every FEED is Consumed and delivers a byte of
it, up to the zero that ends the frame in code position, or that is unexpected in data position. -/
def feedsTo (r : DecOutcome) (f : List Byte) (s : State) : Prop :=
  match r with
  | .ok y => ∃ g h t, f = g ++ 0x00#8 :: h ∧ feedsAll .consumed g y s t ∧ t.dec.state = .code
  | .err y => ∃ g h t, f = g ++ 0x00#8 :: h ∧ feedsAll .consumed g y s t ∧ t.dec.state = .data
  | .incomplete y => ∃ t, feedsAll .consumed f y s t ∧ t.dec.state ≠ .finished

/-- A whole chunk in front of the sequence delivers its bytes first. -/
theorem feedsTo_append {r : DecOutcome} {a out f : List Byte} {s t : State} (ha : feedsAll .consumed a out s t)
    (h : feedsTo r f t) : feedsTo (r.prepend out) (a ++ f) s := by
  cases r with
  | ok y | err y =>
    obtain ⟨g, k, u, rfl, hg, hu⟩ := h
    exact ⟨a ++ g, k, u, (List.append_assoc a g _).symm, feedsAll_append ha hg, hu⟩
  | incomplete y =>
    obtain ⟨u, hf, hu⟩ := h
    exact ⟨u, feedsAll_append ha hf, hu⟩

/-- The decoder between two chunks computes `DecB` (R123): by induction over the chunks of any sequence. -/
theorem feedsTo_decFrom {owed : Bool} (f : List Byte) {s : State} (h : betweenChunks owed s.dec) :
    feedsTo (decFrom owed f) f s := by
  induction hn : f.length using Nat.strong_induction_on generalizing f owed s with
  | _ n ih =>
    cases f with
    | nil => exact ⟨s, feedsAll_nil _ s, by simp [h.1]⟩
    | cons c f =>
      by_cases hc : c = 0x00#8
      · subst hc
        exact ⟨[], f, s, rfl, feedsAll_nil _ s, h.1⟩
      · rcases chunk_cases (dataCount c) f with ⟨u, k, rfl, hu, hlen⟩ | ⟨hf, hlen⟩ | ⟨u, k, rfl, hu, hlen⟩
        · obtain ⟨t, ht, hdata⟩ := feedsAll_partial_chunk hc hu hlen h
          rw [decFrom_zero_in_chunk hc hu hlen]
          exact ⟨c :: u, k, t, rfl, ht, hdata⟩
        · obtain ⟨t, ht, hdata⟩ := feedsAll_partial_chunk hc hf hlen h
          rw [decFrom_short_chunk hc hf hlen]
          exact ⟨t, ht, by simp [hdata]⟩
        · obtain rfl : chunkCode u.length = c := by rw [hlen, chunkCode_dataCount hc]
          have hcap : u.length ≤ 254 := hlen.trans_le (dataCount_le _)
          obtain ⟨t, ht, hbetween⟩ := feedsAll_chunk hu hcap h
          rw [decFrom_chunk hu hcap]
          refine feedsTo_append ht (ih _ ?_ k hbetween rfl)
          rw [← hn, List.length_cons, List.length_append]
          omega

/-- A run of FEEDs and one more: the last one adds its result, and its output byte if it has one. -/
theorem issue_feed_last {r r' : FeedResult} {g y : List Byte} {b : Byte} {s t : State} (h : feedsAll r g y s t)
    (hlast : (feedByte b t.dec).2 = feedResponse r' none) :
    ∃ ps u, issue ((g ++ [b]).map Instr.feed) s = some (ps, u) ∧
      resultsOf ps = List.replicate g.length (some r) ++ [some r'] ∧ outputsOf ps = y := by
  obtain ⟨ps, hrun, hres, hout⟩ := h
  have hend := issue_cons_of_next (exec_feed b t) (issue_nil _)
  refine ⟨_, _, by rw [List.map_append]; exact issue_append_some hrun hend, ?_, ?_⟩
  · rw [resultsOf_append, hres, resultsOf_cons, onDecoder_ports, hlast]
    rfl
  · rw [outputsOf_append, hout, outputsOf_cons, onDecoder_ports, hlast]
    exact List.append_nil y

/-- Settles O24: from reset the decoder stands between two chunks with no zero owed, where it computes `Dec`; the zero
that ends a run is TERM in code position and ILLZ in data position. -/
theorem decoderComputesTheReferenceDecoding : Obligations.DecoderComputesTheReferenceDecoding := by
  intro s f hdec
  have hverdict : feedsTo (refDec f) f s := feedsTo_decFrom f (owed := false) (by rw [hdec]; exact ⟨rfl, rfl⟩)
  cases hr : refDec f with
  | ok y =>
    rw [hr] at hverdict
    obtain ⟨g, k, t, hf, hg, hs⟩ := hverdict
    obtain ⟨ps, u, hrun⟩ := issue_feed_last hg (congrArg Prod.snd (feedByte_code_zero hs))
    exact ⟨g, k, ps, u, hf, hrun⟩
  | err y =>
    rw [hr] at hverdict
    obtain ⟨g, k, t, hf, hg, hs⟩ := hverdict
    obtain ⟨ps, u, hrun⟩ := issue_feed_last hg (congrArg Prod.snd (feedByte_data_zero hs))
    exact ⟨g, k, ps, u, hf, hrun⟩
  | incomplete y =>
    rw [hr] at hverdict
    obtain ⟨t, ⟨ps, hrun, hres, hout⟩, hs⟩ := hverdict
    exact ⟨ps, t, hrun, hres, hout, hs⟩

end Sys2Proof.Safety
end

section
/-! # One step of the machine (R13, R75, R228, R240, R245): the oldest input is taken and run, nothing else of the queue
shows, and a request placed with what it needs selected always runs -/

namespace Sys2Proof.Safety

open Sys2Proof.Machine

/-! ## Idle, reset, one request -/

/-- Settles O5: the step takes the request and runs what it decodes to. -/
theorem stepRunsTheDecodedRequest : Obligations.StepRunsTheDecodedRequest := by
  intro s w rest i hp hdec
  exact step_request hp hdec

/-- Settles O6: neither request decodes to an instruction. -/
theorem undecodableRequestStops : Obligations.UndecodableRequestStops := by
  intro s rest nbits w
  exact ⟨fun hp => step_undecodable (e := .noSuchStep) hp rfl, fun hp => step_undecodable (e := .noSuchRow) hp rfl⟩

/-- Settles O8: with no request a step holds the registers, or loads one machine's reset values. -/
theorem idleStepsAndHardwareResets : Obligations.IdleStepsAndHardwareResets := by
  intro s rest
  exact ⟨fun hp => step_nil hp, fun hp => step_hardwareReset hp, fun hp => step_hardwareReset hp⟩

/-- Settles O9: each register as `State.reset` writes it. -/
theorem resetStateIsAsTheSpecSays : Obligations.ResetStateIsAsTheSpecSays :=
  ⟨rfl, rfl, rfl, rfl, rfl, rfl, rfl⟩

/-- Settles O53: each machine meets its invariant after reset, and the queue is empty. -/
theorem invariantsHoldAtReset : Obligations.InvariantsHoldAtReset :=
  ⟨⟨decoderOk_reset, encoderOk_reset⟩, fun _ hi => absurd hi List.not_mem_nil⟩

/-- Settles O36: a step reads `enc.state` before anything else, and finds the tag of another step. -/
theorem stepOfAnotherTagStops : Obligations.StepOfAnotherTagStops := by
  intro s t htag
  cases t with
  | zfb | zc _ | zd _ _ _ | nzc _ | nzd _ _ _ | fz | fin =>
    simp only [selectedStep, exec, execZfb, execZc, execZd, execNzc, execNzd, execFz, execFin]
    split
    · next hs => exact absurd (congrArg EncState.tag hs.symm) htag
    · rfl

/-! ## The queue does not show in an instruction (notes/assumptions/4.md) -/

/-- The same outcome with the inputs `q` not yet taken. -/
def withPending (q : List Input) (o : Host.Outcome State Fault Refusal) : Host.Outcome State Fault Refusal :=
  match o with
  | .next t => .next { t with pending := q }
  | .fault f => .fault f
  | .refused r => .refused r

theorem onEncoder_withPending (f : Encoder → Except Fault (Encoder × Ports)) (s : State) (q : List Input) :
    onEncoder f { s with pending := q } = { onEncoder f s with pending := q } := by
  simp only [onEncoder]
  split
  · rfl
  · split <;> rfl

theorem inCodePosition_withPending (f : Decoder → Decoder × Ports) (s : State) (q : List Input) :
    inCodePosition f { s with pending := q } = withPending q (inCodePosition f s) := by
  cases hs : s.dec.state with
  | code | data | finished => simp only [inCodePosition, hs]; rfl

theorem inDataPosition_withPending (f : Decoder → Decoder × Ports) (s : State) (q : List Input) :
    inDataPosition f { s with pending := q } = withPending q (inDataPosition f s) := by
  cases hs : s.dec.state with
  | code | data | finished => simp only [inDataPosition, hs]; rfl

/-- The step of a tag is the one its tag decodes to (R105). -/
theorem decodeEncStep_tag (t : EncState) : decodeEncStep t.tag = .ok (selectedStep t) := by
  cases t with
  | zfb | zc _ | zd _ _ _ | nzc _ | nzd _ _ _ | fz | fin => rfl

theorem selectedStep_eq_of_tag_eq {t t' : EncState} (h : t.tag = t'.tag) : selectedStep t = selectedStep t' := by
  have hdec := decodeEncStep_tag t
  rw [h, decodeEncStep_tag] at hdec
  exact (Except.ok.inj hdec).symm

theorem exec_selectedStep_withPending (t : EncState) (s : State) (q : List Input) :
    exec (selectedStep t) { s with pending := q } = withPending q (exec (selectedStep t) s) := by
  by_cases htag : t.tag = s.enc.state.tag
  · have h := exec_selectedStep s
    have h' := exec_selectedStep { s with pending := q }
    rw [selectedStep_eq_of_tag_eq htag, h, h', onEncoder_withPending]
    rfl
  · rw [stepOfAnotherTagStops s t htag, stepOfAnotherTagStops { s with pending := q } t htag]
    rfl

/-- An instruction neither reads nor writes the queue (R75). -/
theorem exec_withPending (i : Instr) (s : State) (q : List Input) :
    exec i { s with pending := q } = withPending q (exec i s) := by
  cases i with
  | term | zero | runz _ | runf => exact inCodePosition_withPending _ s q
  | lit _ | illz => exact inDataPosition_withPending _ s q
  | feed _ | reset => rfl
  | start _ | pull _ | abort | dispose | peek | cpull1 | cpull _ =>
    exact congrArg Host.Outcome.next (onEncoder_withPending _ s q)
  | zfb => exact exec_selectedStep_withPending .zfb s q
  | zc => exact exec_selectedStep_withPending (.zc 0) s q
  | zd => exact exec_selectedStep_withPending (.zd 0 .zc 0) s q
  | nzc => exact exec_selectedStep_withPending (.nzc 0) s q
  | nzd => exact exec_selectedStep_withPending (.nzd 0 0 false) s q
  | fz => exact exec_selectedStep_withPending .fz s q
  | fin => exact exec_selectedStep_withPending .fin s q

/-! ## Requests in order (R75) -/

/-- A request that stands first in the queue, taken before the rest. -/
theorem step_encode {i : Instr} (hwf : i.wellFormed = true) (s : State) (q : List Input) :
    step { s with pending := .request (encode i) :: q } = withPending q (exec i s) := by
  rw [step_request rfl (decodeOfEncodeIsTheInstruction i hwf)]
  exact exec_withPending i s q

/-- Settles O10: each step takes the oldest request and leaves the later ones, which its instruction does not read. -/
theorem pendingRequestsRunInOrder : Obligations.PendingRequestsRunInOrder := by
  intro ops rest s hwf
  induction ops generalizing s with
  | nil => rfl
  | cons i ops ih =>
    obtain ⟨hi, hops⟩ := List.forall_mem_cons.mp hwf
    simp only [List.length_cons, List.map_cons, List.cons_append, stepMany, issue, step_encode hi,
      exec_withPending i s rest]
    cases exec i s with
    | next t => simp only [withPending, ih t hops]
    | fault _ | refused _ => rfl

/-! ## A placed table word (notes/assumptions/6.md) -/

@[simp] theorem selectFor_pending (w : Slot) (s : State) : (selectFor w s).pending = s.pending := by
  cases w with
  | wireCode _ | wireData _ | encStep _ => simp only [selectFor]; split <;> rfl
  | decOp _ _ | encOp _ _ _ | cursor _ _ | unassigned _ _ => rfl

theorem selectFor_wireCode_state (b : Byte) (s : State) : (selectFor (.wireCode b) s).dec.state = .code := by
  simp only [selectFor]
  split
  · assumption
  · rfl

theorem selectFor_wireData_state (b : Byte) (s : State) : (selectFor (.wireData b) s).dec.state = .data := by
  simp only [selectFor]
  split
  · assumption
  · rfl

/-- Every tag but 7 has a situation of its own (R25). -/
theorem encoderAt_tag {tag : BitVec 3} (h : tag ≠ 7#3) : (encoderAt tag).state.tag = tag := by
  revert tag
  decide

theorem selectFor_encStep_tag {tag : BitVec 3} (h : tag ≠ 7#3) (s : State) :
    (selectFor (.encStep tag) s).enc.state.tag = tag := by
  simp only [selectFor]
  split
  · assumption
  · exact encoderAt_tag h

theorem hostOperation_of_isHost {w : Slot} {i : Instr} (hw : w.isHost = true) (hdec : decode w = .ok i) :
    hostOperation i = true := by
  obtain ⟨j, hj, hhost⟩ := decode_of_isHost hw
  rwa [Except.ok.inj (hdec.symm.trans hj)]

/-- What a request needs selected is what its instruction needs to answer a next state (R94, R95, R105). -/
theorem exec_selectFor_next {w : Slot} {i : Instr} (hdec : decode w = .ok i) (s : State) :
    ∃ t, exec i (selectFor w s) = .next t := by
  cases w with
  | wireCode b =>
    cases hdec
    exact ⟨_, exec_decodeWireCode_of_code b (selectFor_wireCode_state b s)⟩
  | wireData b =>
    cases hdec
    exact ⟨_, exec_decodeWireData_of_data b (selectFor_wireData_state b s)⟩
  | decOp op din => exact exec_hostOperation_next (hostOperation_of_isHost rfl hdec) _
  | encOp op chain max => exact exec_hostOperation_next (hostOperation_of_isHost rfl hdec) _
  | cursor name n =>
    cases hdec
    cases name with
    | peek | cpull1 | cpull => exact ⟨_, rfl⟩
  | encStep tag =>
    have htag : tag ≠ 7#3 := by
      rintro rfl
      cases hdec
    have hsel := decodeEncStep_tag (selectFor (.encStep tag) s).enc.state
    rw [selectFor_encStep_tag htag] at hsel
    cases hdec.symm.trans hsel
    exact ⟨_, exec_selectedStep _⟩
  | unassigned _ _ => cases hdec

theorem decode_tableSlot {nbits w : Nat} {i : Instr} (h : decodeTableWord nbits w = some i) :
    decode (tableSlot nbits w) = .ok i := by
  unfold decodeTableWord at h
  split at h
  · next hdec => rw [hdec, Option.some.inj h]
  · cases h

/-- Settles O7: the word stands first in the queue, and taking it leaves the state it was selected for. -/
theorem placedTableWordRunsNext : Obligations.PlacedTableWordRunsNext := by
  intro nbits w i h
  have hdec := decode_tableSlot h
  have hstep : ∀ s : State, step (s.withFetchWord nbits w) = exec i (selectFor (tableSlot nbits w) s) := by
    intro s
    rw [State.withFetchWord, placeRequest, step_request rfl hdec, ← selectFor_pending (tableSlot nbits w) s]
  obtain ⟨t, ht⟩ := exec_selectFor_next hdec State.reset
  exact ⟨hstep, t, (hstep _).trans ht⟩

end Sys2Proof.Safety
end
